-- ==== Sys2Proof/Word.lean ====
section
/-! DEFINITION. The word types of the core (spec/00_scope.md R9, R12): every value of the machine is an
unsigned integer of a stated width, so the wrapping ones are bit vectors, and register and key numbers,
which are only ever indexes, are bounded numbers. -/

namespace Sys2Proof

/-- An 8-bit value: a general register, a memory cell, a timer, the immediate `kk` (R12, R21). -/
abbrev Byte := BitVec 8

/-- A 16-bit value: `pc`, `I`, a stack entry, an instruction word (R24, R27, R28, R78). -/
abbrev Word := BitVec 16

/-- A general register number, one nibble of the opcode (R21). -/
abbrev Reg := Fin 16

/-- A keypad key number (R30, R205). -/
abbrev Key := Fin 16

/-- Register 15, which doubles as the flag register (R22). -/
abbrev regVF : Reg := 15

end Sys2Proof
end

