-- ==== Sys2Proof/Config.lean ====
section
/-! DEFINITION. What is fixed for the core (spec/00_scope.md R9) and what the spec leaves open (R10): the
customary value of the parameter FONT, and the free random byte. -/

namespace Sys2Proof

/-- MEM_SIZE of R9: addresses 0x000 to 0xFFF. -/
abbrev Config.memSize : Nat := 4096

/-- PROG_BASE of R9: the load address and the reset value of `pc`. -/
abbrev Config.progBase : Nat := 0x200

/-- STACK_DEPTH of R9. -/
abbrev Config.stackDepth : Nat := 16

/-- GLYPH_BYTES of R9. -/
abbrev Config.glyphBytes : Nat := 5

/-- DISP_W of R9. -/
abbrev Config.dispW : Nat := 64

/-- DISP_H of R9. -/
abbrev Config.dispH : Nat := 32

/-- The parameter FONT of R10 and R36: 80 bytes, glyph `d` at index `5 * d`. -/
abbrev Font := Vector Byte 80

/-- The customary font table, which R36 prints as the default of the parameter FONT and marks as general
knowledge.  PRESUMED (log entry 1): only `State.reset` uses it; every other definition takes the font from
the state, so a statement about every state is a statement about every FONT. -/
def Config.customaryFont : Font :=
  #v[0xF0, 0x90, 0x90, 0x90, 0xF0,
     0x20, 0x60, 0x20, 0x20, 0x70,
     0xF0, 0x10, 0xF0, 0x80, 0xF0,
     0xF0, 0x10, 0xF0, 0x10, 0xF0,
     0x90, 0x90, 0xF0, 0x10, 0x10,
     0xF0, 0x80, 0xF0, 0x10, 0xF0,
     0xF0, 0x80, 0xF0, 0x90, 0xF0,
     0xF0, 0x10, 0x20, 0x40, 0x40,
     0xF0, 0x90, 0xF0, 0x90, 0xF0,
     0xF0, 0x90, 0xF0, 0x10, 0xF0,
     0xF0, 0x90, 0xF0, 0x90, 0x90,
     0xE0, 0x90, 0xE0, 0x90, 0xE0,
     0xF0, 0x80, 0x80, 0x80, 0xF0,
     0xE0, 0x90, 0x90, 0x90, 0xE0,
     0xF0, 0x80, 0xF0, 0x80, 0xF0,
     0xF0, 0x80, 0xF0, 0x80, 0x80]

/-- The free random byte (R10, R142, R208, U6): what `rnd` is at the `n`-th TICK for which the host's
schedule names no byte.  It has no value that any proof can see (log entry 2). -/
opaque Config.randomByte : Nat → Byte

end Sys2Proof
end

