-- ==== Sys2Proof/Syntax.lean ====
section
/-! DEFINITION. The instructions: one constructor per row of spec/opcode_table.json, in the order of
spec/30_encoding.md R80.  Operands are already what the machine uses: register numbers, the byte `kk`, the
address `nnn` as the 16-bit value that R83 zero-extends it to, and the row count `n` as a number. -/

namespace Sys2Proof

inductive Instr where
  /-- 00E0 CLS (R101) -/
  | cls
  /-- 00EE RET (R111) -/
  | ret
  /-- 1nnn JP nnn (R112) -/
  | jp (nnn : Word)
  /-- 2nnn CALL nnn (R113) -/
  | call (nnn : Word)
  /-- 3xkk SE Vx, kk (R114) -/
  | seImm (x : Reg) (kk : Byte)
  /-- 4xkk SNE Vx, kk (R115) -/
  | sneImm (x : Reg) (kk : Byte)
  /-- 5xy0 SE Vx, Vy (R116) -/
  | seReg (x y : Reg)
  /-- 9xy0 SNE Vx, Vy (R117) -/
  | sneReg (x y : Reg)
  /-- 6xkk LD Vx, kk (R131) -/
  | ldImm (x : Reg) (kk : Byte)
  /-- 7xkk ADD Vx, kk (R132) -/
  | addImm (x : Reg) (kk : Byte)
  /-- 8xy0 LD Vx, Vy (R133) -/
  | ldReg (x y : Reg)
  /-- 8xy1 OR Vx, Vy (R134) -/
  | orReg (x y : Reg)
  /-- 8xy2 AND Vx, Vy (R135) -/
  | andReg (x y : Reg)
  /-- 8xy3 XOR Vx, Vy (R136) -/
  | xorReg (x y : Reg)
  /-- 8xy4 ADD Vx, Vy (R137) -/
  | addReg (x y : Reg)
  /-- 8xy5 SUB Vx, Vy (R138) -/
  | sub (x y : Reg)
  /-- 8xy6 SHR Vx; the y field is no operand (R139, R84) -/
  | shr (x : Reg)
  /-- 8xy7 SUBN Vx, Vy (R140) -/
  | subn (x y : Reg)
  /-- 8xyE SHL Vx; the y field is no operand (R141, R84) -/
  | shl (x : Reg)
  /-- Annn LD I, nnn (R156) -/
  | ldI (nnn : Word)
  /-- Bnnn JP V0, nnn (R118) -/
  | jpV0 (nnn : Word)
  /-- Cxkk RND Vx, kk (R142) -/
  | rnd (x : Reg) (kk : Byte)
  /-- Dxyn DRW Vx, Vy, n (R102) -/
  | drw (x y : Reg) (n : Nat)
  /-- Ex9E SKP Vx (R171) -/
  | skp (x : Reg)
  /-- ExA1 SKNP Vx (R172) -/
  | sknp (x : Reg)
  /-- Fx07 LD Vx, DT (R173) -/
  | ldVxDt (x : Reg)
  /-- Fx0A LD Vx, K (R174) -/
  | ldVxK (x : Reg)
  /-- Fx15 LD DT, Vx (R175) -/
  | ldDtVx (x : Reg)
  /-- Fx18 LD ST, Vx (R176) -/
  | ldStVx (x : Reg)
  /-- Fx1E ADD I, Vx (R157) -/
  | addI (x : Reg)
  /-- Fx29 LD F, Vx (R158) -/
  | ldF (x : Reg)
  /-- Fx33 LD B, Vx (R159) -/
  | ldB (x : Reg)
  /-- Fx55 LD [I], Vx (R160) -/
  | stRegs (x : Reg)
  /-- Fx65 LD Vx, [I] (R161) -/
  | ldRegs (x : Reg)
  deriving DecidableEq, Repr

end Sys2Proof
end

