-- ==== Sys2Proof/WellFormed.lean ====
section
/-! DEFINITION. Which terms of `Instr` are instructions: those whose operands fit their encoding fields
(spec/30_encoding.md R78, R83).  Register numbers and `kk` fit by their types; the address has 12 bits and
the row count 4. -/

namespace Sys2Proof

/-- The address operand fits the 12-bit field `nnn` (R78). -/
def addressFits (nnn : Word) : Bool := decide (nnn.toNat < 4096)

/-- The row count fits the 4-bit field `n` (R78). -/
def rowsFit (n : Nat) : Bool := decide (n < 16)

/-- Every operand of the instruction fits its field. -/
def Instr.wellFormed : Instr → Bool
  | .cls => true
  | .ret => true
  | .jp nnn => addressFits nnn
  | .call nnn => addressFits nnn
  | .seImm _ _ => true
  | .sneImm _ _ => true
  | .seReg _ _ => true
  | .sneReg _ _ => true
  | .ldImm _ _ => true
  | .addImm _ _ => true
  | .ldReg _ _ => true
  | .orReg _ _ => true
  | .andReg _ _ => true
  | .xorReg _ _ => true
  | .addReg _ _ => true
  | .sub _ _ => true
  | .shr _ => true
  | .subn _ _ => true
  | .shl _ => true
  | .ldI nnn => addressFits nnn
  | .jpV0 nnn => addressFits nnn
  | .rnd _ _ => true
  | .drw _ _ n => rowsFit n
  | .skp _ => true
  | .sknp _ => true
  | .ldVxDt _ => true
  | .ldVxK _ => true
  | .ldDtVx _ => true
  | .ldStVx _ => true
  | .addI _ => true
  | .ldF _ => true
  | .ldB _ => true
  | .stRegs _ => true
  | .ldRegs _ => true

end Sys2Proof
end

