-- ==== Sys2Proof/Decode.lean ====
section
/-! DEFINITION. From bytes to instructions and back (spec/30_encoding.md R77 to R92): the byte order, the
fields, the decoder of R91, the opcode map of R80 as masks and matches, and the encoder. -/

namespace Sys2Proof

/-! ### Byte order (spec/20_memory.md R54) -/

/-- The word whose high byte lies at the lower address (R54). -/
def wordOfBytes (hi lo : Byte) : Word := hi ++ lo

/-- The two bytes of a word, the one at the lower address first (R54, R78). -/
def bytesOfWord (w : Word) : List Byte := [w.extractLsb' 8 8, w.extractLsb' 0 8]

/-! ### Fields (R78) -/

/-- `d1 = w[15:12]`, the major opcode. -/
def fieldD1 (w : Word) : BitVec 4 := w.extractLsb' 12 4

/-- `x = w[11:8]`, the register number of Vx. -/
def fieldX (w : Word) : Reg := (w.extractLsb' 8 4).toFin

/-- `y = w[7:4]`, the register number of Vy. -/
def fieldY (w : Word) : Reg := (w.extractLsb' 4 4).toFin

/-- `n = w[3:0]`, the minor opcode or the row count. -/
def fieldN (w : Word) : BitVec 4 := w.extractLsb' 0 4

/-- `kk = w[7:0]`, the byte immediate. -/
def fieldKk (w : Word) : Byte := w.extractLsb' 0 8

/-- `nnn = w[11:0]`, the address immediate, zero-extended to 16 bits as every use of it is (R83). -/
def fieldNnn (w : Word) : Word := (w.extractLsb' 0 12).setWidth 16

/-! ### Decoding -/

/-- Why a decoder refuses. -/
inductive DecodeError where
  /-- The word matches none of the 34 patterns (R86). -/
  | invalidOpcode (w : Word)
  /-- Fewer than the two bytes of an instruction are there (R78). -/
  | truncated
  deriving DecidableEq, Repr

/-- Family 0 (R91): the two whole-word instructions. -/
def decode0 (w : Word) : Except DecodeError Instr :=
  if w = 0x00E0#16 then .ok .cls
  else if w = 0x00EE#16 then .ok .ret
  else .error (.invalidOpcode w)

/-- Family 8 (R91): told apart by `d4`. -/
def decode8 (w : Word) : Except DecodeError Instr :=
  match fieldN w with
  | 0x0#4 => .ok (.ldReg (fieldX w) (fieldY w))
  | 0x1#4 => .ok (.orReg (fieldX w) (fieldY w))
  | 0x2#4 => .ok (.andReg (fieldX w) (fieldY w))
  | 0x3#4 => .ok (.xorReg (fieldX w) (fieldY w))
  | 0x4#4 => .ok (.addReg (fieldX w) (fieldY w))
  | 0x5#4 => .ok (.sub (fieldX w) (fieldY w))
  | 0x6#4 => .ok (.shr (fieldX w))
  | 0x7#4 => .ok (.subn (fieldX w) (fieldY w))
  | 0xE#4 => .ok (.shl (fieldX w))
  | _ => .error (.invalidOpcode w)

/-- Family E (R91): told apart by `kk`. -/
def decodeE (w : Word) : Except DecodeError Instr :=
  match fieldKk w with
  | 0x9E#8 => .ok (.skp (fieldX w))
  | 0xA1#8 => .ok (.sknp (fieldX w))
  | _ => .error (.invalidOpcode w)

/-- Family F (R91): told apart by `kk`. -/
def decodeF (w : Word) : Except DecodeError Instr :=
  match fieldKk w with
  | 0x07#8 => .ok (.ldVxDt (fieldX w))
  | 0x0A#8 => .ok (.ldVxK (fieldX w))
  | 0x15#8 => .ok (.ldDtVx (fieldX w))
  | 0x18#8 => .ok (.ldStVx (fieldX w))
  | 0x1E#8 => .ok (.addI (fieldX w))
  | 0x29#8 => .ok (.ldF (fieldX w))
  | 0x33#8 => .ok (.ldB (fieldX w))
  | 0x55#8 => .ok (.stRegs (fieldX w))
  | 0x65#8 => .ok (.ldRegs (fieldX w))
  | _ => .error (.invalidOpcode w)

/-- The decoder of R91: total on the 65536 words, refusing by name (R77, R86). -/
def decodeWord (w : Word) : Except DecodeError Instr :=
  match fieldD1 w with
  | 0x0#4 => decode0 w
  | 0x1#4 => .ok (.jp (fieldNnn w))
  | 0x2#4 => .ok (.call (fieldNnn w))
  | 0x3#4 => .ok (.seImm (fieldX w) (fieldKk w))
  | 0x4#4 => .ok (.sneImm (fieldX w) (fieldKk w))
  | 0x5#4 => if fieldN w = 0 then .ok (.seReg (fieldX w) (fieldY w)) else .error (.invalidOpcode w)
  | 0x6#4 => .ok (.ldImm (fieldX w) (fieldKk w))
  | 0x7#4 => .ok (.addImm (fieldX w) (fieldKk w))
  | 0x8#4 => decode8 w
  | 0x9#4 => if fieldN w = 0 then .ok (.sneReg (fieldX w) (fieldY w)) else .error (.invalidOpcode w)
  | 0xA#4 => .ok (.ldI (fieldNnn w))
  | 0xB#4 => .ok (.jpV0 (fieldNnn w))
  | 0xC#4 => .ok (.rnd (fieldX w) (fieldKk w))
  | 0xD#4 => .ok (.drw (fieldX w) (fieldY w) (fieldN w).toNat)
  | 0xE#4 => decodeE w
  | _ => decodeF w

/-- Decoding a stream of bytes: the instruction at its head and the bytes after it; total on any bytes. -/
def decodeBytes : List Byte → Except DecodeError (Instr × List Byte)
  | hi :: lo :: rest => (decodeWord (wordOfBytes hi lo)).map fun i => (i, rest)
  | _ => .error .truncated

/-- The decoder on an instruction numbered as spec/opcode_table.json numbers it: bit 0 is the least
significant bit of the one 16-bit word, and every bit above `nbits` is 0. -/
def decodeTableWord (nbits w : Nat) : Option Instr :=
  match decodeBytes (bytesOfWord (BitVec.ofNat 16 (w % 2 ^ nbits))) with
  | .ok (i, _) => some i
  | .error _ => none

/-! ### The opcode map as masks and matches (R80) -/

/-- The mask of the instruction's row of R80. -/
def Instr.opMask : Instr → Word
  | .cls => 0xFFFF
  | .ret => 0xFFFF
  | .jp _ => 0xF000
  | .call _ => 0xF000
  | .seImm _ _ => 0xF000
  | .sneImm _ _ => 0xF000
  | .seReg _ _ => 0xF00F
  | .sneReg _ _ => 0xF00F
  | .ldImm _ _ => 0xF000
  | .addImm _ _ => 0xF000
  | .ldReg _ _ => 0xF00F
  | .orReg _ _ => 0xF00F
  | .andReg _ _ => 0xF00F
  | .xorReg _ _ => 0xF00F
  | .addReg _ _ => 0xF00F
  | .sub _ _ => 0xF00F
  | .shr _ => 0xF00F
  | .subn _ _ => 0xF00F
  | .shl _ => 0xF00F
  | .ldI _ => 0xF000
  | .jpV0 _ => 0xF000
  | .rnd _ _ => 0xF000
  | .drw _ _ _ => 0xF000
  | .skp _ => 0xF0FF
  | .sknp _ => 0xF0FF
  | .ldVxDt _ => 0xF0FF
  | .ldVxK _ => 0xF0FF
  | .ldDtVx _ => 0xF0FF
  | .ldStVx _ => 0xF0FF
  | .addI _ => 0xF0FF
  | .ldF _ => 0xF0FF
  | .ldB _ => 0xF0FF
  | .stRegs _ => 0xF0FF
  | .ldRegs _ => 0xF0FF

/-- The match value of the instruction's row of R80. -/
def Instr.opMatch : Instr → Word
  | .cls => 0x00E0
  | .ret => 0x00EE
  | .jp _ => 0x1000
  | .call _ => 0x2000
  | .seImm _ _ => 0x3000
  | .sneImm _ _ => 0x4000
  | .seReg _ _ => 0x5000
  | .sneReg _ _ => 0x9000
  | .ldImm _ _ => 0x6000
  | .addImm _ _ => 0x7000
  | .ldReg _ _ => 0x8000
  | .orReg _ _ => 0x8001
  | .andReg _ _ => 0x8002
  | .xorReg _ _ => 0x8003
  | .addReg _ _ => 0x8004
  | .sub _ _ => 0x8005
  | .shr _ => 0x8006
  | .subn _ _ => 0x8007
  | .shl _ => 0x800E
  | .ldI _ => 0xA000
  | .jpV0 _ => 0xB000
  | .rnd _ _ => 0xC000
  | .drw _ _ _ => 0xD000
  | .skp _ => 0xE09E
  | .sknp _ => 0xE0A1
  | .ldVxDt _ => 0xF007
  | .ldVxK _ => 0xF00A
  | .ldDtVx _ => 0xF015
  | .ldStVx _ => 0xF018
  | .addI _ => 0xF01E
  | .ldF _ => 0xF029
  | .ldB _ => 0xF033
  | .stRegs _ => 0xF055
  | .ldRegs _ => 0xF065

/-- The (mask, match) columns of R80, its 34 rows in its order. -/
def opcodeMap : List (Word × Word) :=
  [(0xFFFF, 0x00E0), (0xFFFF, 0x00EE), (0xF000, 0x1000), (0xF000, 0x2000), (0xF000, 0x3000),
   (0xF000, 0x4000), (0xF00F, 0x5000), (0xF00F, 0x9000), (0xF000, 0x6000), (0xF000, 0x7000)] ++
  [(0xF00F, 0x8000), (0xF00F, 0x8001), (0xF00F, 0x8002), (0xF00F, 0x8003), (0xF00F, 0x8004),
   (0xF00F, 0x8005), (0xF00F, 0x8006), (0xF00F, 0x8007), (0xF00F, 0x800E)] ++
  [(0xF000, 0xA000), (0xF000, 0xB000), (0xF000, 0xC000), (0xF000, 0xD000), (0xF0FF, 0xE09E),
   (0xF0FF, 0xE0A1)] ++
  [(0xF0FF, 0xF007), (0xF0FF, 0xF00A), (0xF0FF, 0xF015), (0xF0FF, 0xF018), (0xF0FF, 0xF01E),
   (0xF0FF, 0xF029), (0xF0FF, 0xF033), (0xF0FF, 0xF055), (0xF0FF, 0xF065)]

/-! ### Encoding (the formats of R79) -/

/-- A register number as the nibble that names it. -/
def nibbleOf (x : Reg) : BitVec 4 := BitVec.ofNat 4 x.val

/-- Format A: `{op, nnn}`. -/
def formatA (op : BitVec 4) (nnn : Word) : Word := op ++ nnn.setWidth 12

/-- Format I: `{op, x, kk}`. -/
def formatI (op : BitVec 4) (x : Reg) (kk : Byte) : Word := op ++ nibbleOf x ++ kk

/-- Formats R and D: `{op, x, y, n}`. -/
def formatR (op : BitVec 4) (x y : Reg) (n : BitVec 4) : Word := op ++ nibbleOf x ++ nibbleOf y ++ n

/-- The word of an instruction.  The ignored y field of 8xy6 and 8xyE is written as 0, the canonical
encoding of R89. -/
def encode : Instr → Word
  | .cls => 0x00E0
  | .ret => 0x00EE
  | .jp nnn => formatA 0x1 nnn
  | .call nnn => formatA 0x2 nnn
  | .seImm x kk => formatI 0x3 x kk
  | .sneImm x kk => formatI 0x4 x kk
  | .seReg x y => formatR 0x5 x y 0x0
  | .sneReg x y => formatR 0x9 x y 0x0
  | .ldImm x kk => formatI 0x6 x kk
  | .addImm x kk => formatI 0x7 x kk
  | .ldReg x y => formatR 0x8 x y 0x0
  | .orReg x y => formatR 0x8 x y 0x1
  | .andReg x y => formatR 0x8 x y 0x2
  | .xorReg x y => formatR 0x8 x y 0x3
  | .addReg x y => formatR 0x8 x y 0x4
  | .sub x y => formatR 0x8 x y 0x5
  | .shr x => formatR 0x8 x 0 0x6
  | .subn x y => formatR 0x8 x y 0x7
  | .shl x => formatR 0x8 x 0 0xE
  | .ldI nnn => formatA 0xA nnn
  | .jpV0 nnn => formatA 0xB nnn
  | .rnd x kk => formatI 0xC x kk
  | .drw x y n => formatR 0xD x y (BitVec.ofNat 4 n)
  | .skp x => formatI 0xE x 0x9E
  | .sknp x => formatI 0xE x 0xA1
  | .ldVxDt x => formatI 0xF x 0x07
  | .ldVxK x => formatI 0xF x 0x0A
  | .ldDtVx x => formatI 0xF x 0x15
  | .ldStVx x => formatI 0xF x 0x18
  | .addI x => formatI 0xF x 0x1E
  | .ldF x => formatI 0xF x 0x29
  | .ldB x => formatI 0xF x 0x33
  | .stRegs x => formatI 0xF x 0x55
  | .ldRegs x => formatI 0xF x 0x65

end Sys2Proof
end

