-- ==== Sys2Proof/Machine/State.lean ====
section
/-! DEFINITION. The state of the core (spec/10_state.md R20), the host events that can reach it
(spec/00_scope.md R11), the fault record (R33) and the state after RESET (R35). -/

namespace Sys2Proof.Machine

/-- The fault causes of spec/60_exceptions.md R186, each with what its `raise` passes.  They are values of
the state's fault record, not outcomes of a step: R190 describes the entry, and the step takes it. -/
inductive FaultCause where
  /-- code 1: the fetched word matches no row of the opcode map (R86) -/
  | invalidOpcode (w : Word)
  /-- code 2: an access of fetch, Dxyn, Fx33, Fx55 or Fx65 at an address of 4096 or more; `a` is the address
  the access starts at, never reduced (R52) -/
  | memoryOutOfBounds (a : Nat)
  /-- code 3: 2nnn with 16 entries in use (R113) -/
  | stackOverflow
  /-- code 4: 00EE with an empty stack (R111) -/
  | stackUnderflow
  /-- code 5: Ex9E or ExA1 with Vx of 16 or more (R171, R172) -/
  | keyIndexOutOfRange (k : Byte)
  /-- code 6: LOAD of more bytes than fit from 0x200 on (R224) -/
  | loadOutOfBounds (len : Nat)
  deriving DecidableEq, Repr

/-- The fault record of R33: the cause, the word that was executing if one was fetched, and the address the
instruction was or was to be fetched from.  The record's code is `FaultCause.code` of its cause. -/
structure FaultRecord where
  cause  : FaultCause
  opcode : Option Word
  addr   : Option Word
  deriving DecidableEq, Repr

/-- What the host can raise (R11, R209), one event at a time. -/
inductive HostEvent where
  /-- one fetch, decode and execute cycle, with the random byte of this TICK (R75, R208) -/
  | tick (rnd : Byte)
  /-- one decrement of the timers (R202) -/
  | tickTimers
  /-- a key latch set or cleared (R205) -/
  | keypress (k : Key) (pressed : Bool)
  /-- a program image copied to 0x200 and up (R224) -/
  | load (bytes : List Byte)
  /-- `new` and `reset` (R220) -/
  | reset
  /-- the read-only view of the display (R207) -/
  | getDisplay
  deriving DecidableEq, Repr

/-- The framebuffer (R31, R100): 32 rows of 64 pixels, row 0 first; bit `cx` of row `cy` is the pixel at
column `cx`, that is `disp[cy * 64 + cx]`; 1 is lit (layout: DESIGN CHOICE, log entry 19). -/
abbrev Display := Vector (BitVec 64) 32

/-- Memory (R32, R50): the cells that differ from their reset contents, by rising address. -/
abbrev Memory := List Host.Cell

/-- The host's side, the MODEL's own fields and no state of the core (R34): the event schedule is D21's
argument of the model, `rnd` is the input of R208. -/
structure Inputs where
  /-- the events the host will raise, the next one first; with none left the host raises TICKs -/
  events : List HostEvent
  /-- the input `rnd` of the TICK being performed -/
  rnd    : Byte
  /-- how many free random bytes have been taken -/
  draws  : Nat
  /-- a TICK has been raised since the last RESET, so that a LOAD now would break the host's duty (R227) -/
  ticked : Bool
  deriving DecidableEq, Repr

/-- The state of the core, element by element as R20 lists it, then the model's own two fields. -/
structure State where
  /-- `V[0..15]` (R21) -/
  v     : Vector Byte 16
  /-- the program counter (R24) -/
  pc    : Word
  /-- the index register `I` (R27) -/
  i     : Word
  /-- `stack[0..15]` (R28) -/
  stack : Vector Word 16
  /-- the number of valid stack entries, 0 to 16 (R28) -/
  sp    : Fin 17
  /-- the delay timer DT (R29) -/
  dt    : Byte
  /-- the sound timer ST (R29) -/
  st    : Byte
  /-- `key[0..15]`, true when the key is down (R30) -/
  key   : Vector Bool 16
  /-- the framebuffer (R31) -/
  disp  : Display
  /-- the memory's cells that differ from their reset contents (R32) -/
  mem   : Memory
  /-- the fault record; the core is halted when there is one (R33) -/
  fault : Option FaultRecord
  /-- MODEL's own: the parameter FONT (R10, R36), constant along every run -/
  font  : Font
  /-- MODEL's own: what the host will raise and supply (R11) -/
  inp   : Inputs
  deriving DecidableEq, Repr

/-- Why a step stops outside the spec's own fault mechanism: never.  Every fatal condition of R186 has an
entry that R190 describes, so the step takes it as a next state with the fault record set, and the halted
core goes on answering TICK with no change (R192).  No constructor: nothing raises one (safe). -/
inductive Fault where
  deriving DecidableEq, Repr

/-- Why the model gives an instruction no meaning, or a run no next step. -/
inductive Refusal where
  /-- Raised by an arm of `exec` for an instruction whose meaning is not written; no arm does (safe). -/
  | notModelled (mnemonic : String)
  /-- Raised by `step` for a LOAD into a running core after the first TICK: R227 assumes that the host never does
  this and asks a model to refuse such a run (safe; log entry 4). -/
  | loadAfterTick
  deriving DecidableEq, Repr

/-- The state after RESET (R35, R220) for a given FONT and a given host side. -/
def State.resetWith (font : Font) (inp : Inputs) : State where
  v     := Vector.replicate 16 0
  pc    := 0x0200
  i     := 0
  stack := Vector.replicate 16 0
  sp    := 0
  dt    := 0
  st    := 0
  key   := Vector.replicate 16 false
  disp  := Vector.replicate 32 0
  mem   := []
  fault := none
  font  := font
  inp   := inp

/-- The machine right after RESET, with the customary FONT (log entry 1) and a host that has named no event
yet (log entry 3). -/
def State.reset : State :=
  State.resetWith Config.customaryFont { events := [], rnd := 0, draws := 0, ticked := false }

end Sys2Proof.Machine
end

