-- ==== Sys2Proof/Machine/Ops.lean ====
section
/-! DEFINITION. The named operations over registers, memory, program counter and stack, taking a fault
(spec/60_exceptions.md R190), and the fetch (spec/30_encoding.md R76).  The core has no return from a fault
(R193): only RESET leaves the halted state. -/

namespace Sys2Proof.Machine

/-! ### General registers (R21) -/

/-- `V[x]`. -/
def State.reg (s : State) (x : Reg) : Byte := s.v[x.val]

/-- `V[x] <- b`. -/
def State.setReg (s : State) (x : Reg) (b : Byte) : State := { s with v := s.v.set x.val b x.isLt }

/-! ### Program counter (R24 to R26, R110) -/

/-- `pc <- t`: an absolute target, not checked when it is written (R110). -/
def State.setPc (s : State) (t : Word) : State := { s with pc := t }

/-- `pc <- (pc + 2) mod 65536`: the skip of one more instruction (R110). -/
def State.skip (s : State) : State := { s with pc := s.pc + 2 }

/-- Skip the next instruction exactly when the condition holds (R110). -/
def State.skipIf (c : Bool) (s : State) : State := if c then s.skip else s

/-- `pc <- (pc - 2) mod 65536`: the retry of Fx0A (R174). -/
def State.rewind (s : State) : State := { s with pc := s.pc - 2 }

/-! ### Memory cells (R50, R59; the layout is a DESIGN CHOICE, log entry 15) -/

/-- What address `a` holds after RESET (R35, R51): FONT at 0x000 to 0x04F, 0x00 elsewhere.  It is what an
address reads as while no entry lists it. -/
def Memory.unlisted (font : Font) (a : Nat) : Byte := if h : a < 80 then font[a] else 0

/-- The byte at address `a`. -/
def Memory.get (font : Font) : Memory → Nat → Byte
  | [], a => Memory.unlisted font a
  | (b, w) :: m, a => if b = a then w else Memory.get font m a

/-- Put an entry where its address belongs. -/
def Memory.insert : Memory → Nat → Byte → Memory
  | [], a, w => [(a, w)]
  | (b, u) :: m, a, w => if a < b then (a, w) :: (b, u) :: m else (b, u) :: Memory.insert m a w

/-- Write one byte.  The entry of `a` goes, and a new one comes unless it would say what an unlisted address
says, so equal memories are equal lists. -/
def Memory.put (font : Font) (m : Memory) (a : Nat) (w : Byte) : Memory :=
  let rest := m.filter fun c => c.1 != a
  if w = Memory.unlisted font a then rest else Memory.insert rest a w

/-- Write bytes at ascending addresses from `a` on (R55). -/
def Memory.putAll (font : Font) : Memory → Nat → List Byte → Memory
  | m, _, [] => m
  | m, a, w :: ws => Memory.putAll font (Memory.put font m a w) (a + 1) ws

/-- The canonical form: addresses strictly rising, every entry inside the 4096 addresses, and none equal to
what an unlisted address reads as. -/
abbrev Memory.wf (font : Font) (m : Memory) : Prop :=
  m.Pairwise (fun c d => c.1 < d.1) ∧ ∀ c ∈ m, c.1 < 4096 ∧ c.2 ≠ Memory.unlisted font c.1

/-! ### Memory accesses (R52, R53, R55, R58; UNVERIFIED, decisions D7 and D12, log entry 10) -/

/-- `mem[a]`. -/
def State.byteAt (s : State) (a : Nat) : Byte := Memory.get s.font s.mem a

/-- Bytes stored from `a` on, the range already checked. -/
def State.store (s : State) (a : Nat) (bytes : List Byte) : State :=
  { s with mem := Memory.putAll s.font s.mem a bytes }

/-- The span of `n` bytes at `a` lies inside memory.  The address is an unbounded integer, never reduced
(R52), and a span of no byte cannot be out of range (R102 case c). -/
def spanInRange (a n : Nat) : Bool := n == 0 || decide (a + n - 1 < Config.memSize)

/-- The `n` bytes at `a` onward, lowest address first; the range check covers the whole span (R58). -/
def State.loadSpan (s : State) (a n : Nat) : Except FaultCause (List Byte) :=
  if spanInRange a n then .ok ((List.range n).map fun j => s.byteAt (a + j))
  else .error (.memoryOutOfBounds a)

/-- Store bytes from `a` on; the range check covers the whole span and comes first, so a fault writes
nothing (R53, R58). -/
def State.storeSpan (s : State) (a : Nat) (bytes : List Byte) : Except FaultCause State :=
  if spanInRange a bytes.length then .ok (s.store a bytes)
  else .error (.memoryOutOfBounds a)

/-- Bytes read most significant first, as one unsigned number (R52). -/
def bigEndian (bytes : List Byte) : Nat := bytes.foldl (fun acc b => acc * 256 + b.toNat) 0

/-- The `n` bytes of a number, most significant first (R53). -/
def bigEndianBytes (n v : Nat) : List Byte :=
  (List.range n).map fun j => BitVec.ofNat 8 (v / 256 ^ (n - 1 - j))

/-- `MemRead(a, n)` of R52. -/
def State.memRead (s : State) (a n : Nat) : Except FaultCause Nat :=
  (s.loadSpan a n).map bigEndian

/-- `MemWrite(a, n, v)` of R53. -/
def State.memWrite (s : State) (a n v : Nat) : Except FaultCause State :=
  s.storeSpan a (bigEndianBytes n v)

/-! ### The return-address stack (R28, R111, R113; UNVERIFIED, decisions D5 and D6, log entry 9) -/

/-- Push: `stack[sp] <- t; sp <- sp + 1`, or StackOverflow when 16 entries are in use. -/
def State.push (s : State) (t : Word) : Except FaultCause State :=
  if h : s.sp.val < 16 then
    .ok { s with stack := s.stack.set s.sp.val t h, sp := ⟨s.sp.val + 1, by omega⟩ }
  else .error .stackOverflow

/-- Pop: `sp <- sp - 1`, answering `stack[sp]`, or StackUnderflow on the empty stack.  The entry keeps its
value (R111). -/
def State.pop (s : State) : Except FaultCause (Word × State) :=
  if h : s.sp.val = 0 then .error .stackUnderflow
  else .ok (s.stack[s.sp.val - 1], { s with sp := ⟨s.sp.val - 1, by omega⟩ })

/-! ### Faults (R186, R189, R190; UNVERIFIED, decisions D10 and D11, log entries 6 and 14) -/

/-- The code numbers of R186. -/
def FaultCause.code : FaultCause → Nat
  | .invalidOpcode _ => 1
  | .memoryOutOfBounds _ => 2
  | .stackOverflow => 3
  | .stackUnderflow => 4
  | .keyIndexOutOfRange _ => 5
  | .loadOutOfBounds _ => 6

/-- The `code` of a fault record (R33). -/
def FaultRecord.code (r : FaultRecord) : Nat := r.cause.code

/-- The core is halted (R33, R192). -/
def State.halted (s : State) : Bool := s.fault.isSome

/-- `raise C(info)` of R190: the record is set and nothing else changes; `pc` is left as the fetch left it. -/
def State.raise (s : State) (c : FaultCause) (opcode addr : Option Word) : State :=
  { s with fault := some { cause := c, opcode := opcode, addr := addr } }

/-- `raise C(info)` while an instruction executes.  Its word is the instruction's encoding and its address
A is `pc - 2`, since `pc = A + 2` during execution (R24).  DEDUCED (log entry 5): no instruction that can
fault has an ignored field, so its word is its encoding. -/
def State.raiseIn (s : State) (c : FaultCause) (instr : Instr) : State :=
  s.raise c (some (encode instr)) (some (s.pc - 2))

/-- End an instruction's execution: with its effect, or with the fault it met, entered from the state in
which its execution began (R189). -/
def finish (instr : Instr) (s : State) (r : Except FaultCause State) :
    Host.Outcome State Fault Refusal :=
  match r with
  | .ok t => .next t
  | .error c => .next (s.raiseIn c instr)

/-! ### Fetch (R76) -/

/-- The word at `pc`, high byte first, and the state with `pc` advanced by 2; or MemoryOutOfBounds with
`pc` not advanced. -/
def State.fetch (s : State) : Except FaultCause (Word × State) :=
  (s.memRead s.pc.toNat 2).map fun w => (BitVec.ofNat 16 w, { s with pc := s.pc + 2 })

end Sys2Proof.Machine
end

