-- ==== Sys2Proof/Machine/Operands.lean ====
section
/-! DEFINITION. The operand forms of the instructions (spec/30_encoding.md R83, spec/43_index_memory.md
R155): zero-extended registers, the address `EA_j = I + j`, the register range V0..Vx, and the decimal
digits of a byte. -/

namespace Sys2Proof.Machine

/-- `zext_16(b)` of R13. -/
def zext16 (b : Byte) : Word := b.setWidth 16

/-- `EA_0` of R155: the address in `I`, as an unbounded integer. -/
def State.dataAddr (s : State) : Nat := s.i.toNat

/-- The register numbers 0 to 15 in order. -/
def allRegs : List Reg := [0, 1, 2, 3, 4, 5, 6, 7, 8, 9, 10, 11, 12, 13, 14, 15]

/-- The range V0..Vx, inclusive, of Fx55 and Fx65 (R160, R161). -/
def regsUpTo (x : Reg) : List Reg := allRegs.take (x.val + 1)

/-- The values of V0..Vx in order (R160). -/
def State.regValues (s : State) (x : Reg) : List Byte := (regsUpTo x).map s.reg

/-- Registers loaded in order from a list of bytes (R161). -/
def State.setRegs (s : State) : List Reg → List Byte → State
  | x :: xs, b :: bs => (s.setReg x b).setRegs xs bs
  | _, _ => s

/-- The hundreds, tens and ones of a byte, one digit a byte (R159). -/
def decimalDigits (b : Byte) : List Byte :=
  [BitVec.ofNat 8 (b.toNat / 100), BitVec.ofNat 8 (b.toNat / 10 % 10), BitVec.ofNat 8 (b.toNat % 10)]

/-- The pressed key of least index, if any key is down (R174). -/
def State.lowestKeyDown (s : State) : Option Key := allRegs.find? fun k => s.key[k.val]

/-- The latch of the key that a register's whole 8-bit value names (R171), or KeyIndexOutOfRange for a
value of 16 or more (UNVERIFIED, decision D8, log entry 11). -/
def State.keyLatch (s : State) (k : Byte) : Except FaultCause Bool :=
  if h : k.toNat < 16 then .ok (s.key[k.toNat]) else .error (.keyIndexOutOfRange k)

end Sys2Proof.Machine
end

