-- ==== Sys2Proof/Machine/Flags.lean ====
section
/-! DEFINITION. Every computation of the flag in VF (spec/10_state.md R23, R37; spec/42_alu.md R130) and the
two orders in which an instruction writes its result and its flag (R143; UNVERIFIED, decision D9,
log entry 8). -/

namespace Sys2Proof.Machine

/-- A flag as the byte that VF holds: 1 or 0. -/
def flagByte (c : Bool) : Byte := if c then 1 else 0

/-- The 9-bit sum of two bytes (R137). -/
def wideSum (a b : Byte) : BitVec 9 := a.setWidth 9 + b.setWidth 9

/-- Carry: bit 8 of the sum (R137). -/
def carryFlag (a b : Byte) : Byte := flagByte ((wideSum a b).getLsbD 8)

/-- No-borrow of `a - b`: 1 when `a >= b` (R138). -/
def noBorrowFlag (a b : Byte) : Byte := flagByte (decide (b.toNat ≤ a.toNat))

/-- The bit a right shift shifts out (R139). -/
def shrFlag (a : Byte) : Byte := flagByte (a.getLsbD 0)

/-- The bit a left shift shifts out (R141). -/
def shlFlag (a : Byte) : Byte := flagByte (a.getLsbD 7)

/-- The result first, then the flag: the flag wins when x = F (R137, R138, R140). -/
def State.resultThenFlag (s : State) (x : Reg) (result flag : Byte) : State :=
  (s.setReg x result).setReg regVF flag

/-- The flag first, then the result: the result wins when x = F (R139, R141). -/
def State.flagThenResult (s : State) (x : Reg) (result flag : Byte) : State :=
  (s.setReg regVF flag).setReg x result

end Sys2Proof.Machine
end

