-- ==== Sys2Proof/Machine/Alu.lean ====
section
/-! DEFINITION. Register load, arithmetic, logic, shift and random (spec/42_alu.md).  Every operand is read
before any write (R143). -/

namespace Sys2Proof.Machine

/-- 6xkk LD Vx, kk (R131). -/
def execLdImm (x : Reg) (kk : Byte) (s : State) : Host.Outcome State Fault Refusal :=
  .next (s.setReg x kk)

/-- 7xkk ADD Vx, kk: wraps modulo 256, no flag (R132). -/
def execAddImm (x : Reg) (kk : Byte) (s : State) : Host.Outcome State Fault Refusal :=
  .next (s.setReg x (s.reg x + kk))

/-- 8xy0 LD Vx, Vy (R133). -/
def execLdReg (x y : Reg) (s : State) : Host.Outcome State Fault Refusal :=
  .next (s.setReg x (s.reg y))

/-- 8xy1 OR Vx, Vy: VF is not written (R134). -/
def execOrReg (x y : Reg) (s : State) : Host.Outcome State Fault Refusal :=
  .next (s.setReg x (s.reg x ||| s.reg y))

/-- 8xy2 AND Vx, Vy: VF is not written (R135). -/
def execAndReg (x y : Reg) (s : State) : Host.Outcome State Fault Refusal :=
  .next (s.setReg x (s.reg x &&& s.reg y))

/-- 8xy3 XOR Vx, Vy: VF is not written (R136). -/
def execXorReg (x y : Reg) (s : State) : Host.Outcome State Fault Refusal :=
  .next (s.setReg x (s.reg x ^^^ s.reg y))

/-- 8xy4 ADD Vx, Vy (R137). -/
def execAddReg (x y : Reg) (s : State) : Host.Outcome State Fault Refusal :=
  .next (s.resultThenFlag x ((wideSum (s.reg x) (s.reg y)).setWidth 8) (carryFlag (s.reg x) (s.reg y)))

/-- 8xy5 SUB Vx, Vy (R138). -/
def execSub (x y : Reg) (s : State) : Host.Outcome State Fault Refusal :=
  .next (s.resultThenFlag x (s.reg x - s.reg y) (noBorrowFlag (s.reg x) (s.reg y)))

/-- 8xy6 SHR Vx: Vy takes no part (R139). -/
def execShr (x : Reg) (s : State) : Host.Outcome State Fault Refusal :=
  .next (s.flagThenResult x (s.reg x >>> 1) (shrFlag (s.reg x)))

/-- 8xy7 SUBN Vx, Vy (R140). -/
def execSubn (x y : Reg) (s : State) : Host.Outcome State Fault Refusal :=
  .next (s.resultThenFlag x (s.reg y - s.reg x) (noBorrowFlag (s.reg y) (s.reg x)))

/-- 8xyE SHL Vx: Vy takes no part (R141). -/
def execShl (x : Reg) (s : State) : Host.Outcome State Fault Refusal :=
  .next (s.flagThenResult x (s.reg x <<< 1) (shlFlag (s.reg x)))

/-- Cxkk RND Vx, kk: the input `rnd` of this TICK, masked (R142). -/
def execRnd (x : Reg) (kk : Byte) (s : State) : Host.Outcome State Fault Refusal :=
  .next (s.setReg x (s.inp.rnd &&& kk))

end Sys2Proof.Machine
end

