-- ==== Sys2Proof/Machine/Display.lean ====
section
/-! DEFINITION. The display instructions and the XOR-blend engine (spec/40_display.md). -/

namespace Sys2Proof.Machine

/-- The pixel at column `cx`, row `cy` (R31, R100); outside the 64 by 32 grid there is none. -/
def Display.pixel (d : Display) (cx cy : Nat) : Bool :=
  if h : cy < 32 then d[cy].getLsbD cx else false

/-- `disp[p]` of R13: pixel number `p`, row-major (R31). -/
def Display.bit (d : Display) (p : Nat) : Bool := Display.pixel d (p % 64) (p / 64)

/-- `disp[p] <- disp[p] xor 1` for the pixel at column `cx`, row `cy` (R102). -/
def Display.flip (d : Display) (cx cy : Nat) : Display :=
  if h : cy < 32 then d.set cy (d[cy] ^^^ (1#64 <<< cx)) h else d

/-- The framebuffer and the collision flag while a sprite is drawn. -/
abbrev Blend := Display × Bool

/-- One set bit of the sprite at its pixel: a lit pixel is a collision, and the pixel is toggled (R102). -/
def blendPixel (cx cy : Nat) (acc : Blend) : Blend :=
  (Display.flip acc.1 cx cy, acc.2 || Display.pixel acc.1 cx cy)

/-- One row of the sprite.  Column `c` is bit `7 - c` of the byte (R100; UNVERIFIED, decision D3,
log entry 7), and every pixel wraps by itself,
its column modulo 64 and its row modulo 32 (R102 case a). -/
def blendRow (vx row : Nat) (b : Byte) (acc : Blend) : Blend :=
  (List.range 8).foldl
    (fun acc c => if b.getLsbD (7 - c) then blendPixel ((vx + c) % 64) (row % 32) acc else acc) acc

/-- The rows of a sprite from the top down, the first at `row` (R102). -/
def blendRows (vx row : Nat) : List Byte → Blend → Blend
  | [], acc => acc
  | b :: bs, acc => blendRows vx (row + 1) bs (blendRow vx row b acc)

/-- 00E0 CLS (R101). -/
def execCls (s : State) : Host.Outcome State Fault Refusal :=
  .next { s with disp := Vector.replicate 32 0 }

/-- The effect of Dxyn once its bytes are read: the framebuffer, then VF (R102). -/
def State.drawSprite (s : State) (vx vy : Nat) (bytes : List Byte) : State :=
  let r := blendRows vx vy bytes (s.disp, false)
  State.setReg { s with disp := r.1 } regVF (flagByte r.2)

/-- Dxyn DRW Vx, Vy, n (R102): the coordinates are read before VF is written. -/
def execDrw (x y : Reg) (n : Nat) (s : State) : Host.Outcome State Fault Refusal :=
  finish (.drw x y n) s
    ((s.loadSpan s.dataAddr n).map fun bytes => s.drawSprite (s.reg x).toNat (s.reg y).toNat bytes)

end Sys2Proof.Machine
end

