-- ==== Sys2Proof/Machine/Flow.lean ====
section
/-! DEFINITION. Control transfer (spec/41_flow.md).  In every meaning `pc` is already the address after the
instruction (R110). -/

namespace Sys2Proof.Machine

/-- 00EE RET (R111). -/
def execRet (s : State) : Host.Outcome State Fault Refusal :=
  finish .ret s (s.pop.map fun r => r.2.setPc r.1)

/-- 1nnn JP nnn (R112). -/
def execJp (nnn : Word) (s : State) : Host.Outcome State Fault Refusal := .next (s.setPc nnn)

/-- 2nnn CALL nnn: the advanced `pc` is pushed (R113). -/
def execCall (nnn : Word) (s : State) : Host.Outcome State Fault Refusal :=
  finish (.call nnn) s ((s.push s.pc).map fun t => t.setPc nnn)

/-- 3xkk SE Vx, kk (R114). -/
def execSeImm (x : Reg) (kk : Byte) (s : State) : Host.Outcome State Fault Refusal :=
  .next (s.skipIf (s.reg x == kk))

/-- 4xkk SNE Vx, kk (R115). -/
def execSneImm (x : Reg) (kk : Byte) (s : State) : Host.Outcome State Fault Refusal :=
  .next (s.skipIf (s.reg x != kk))

/-- 5xy0 SE Vx, Vy (R116). -/
def execSeReg (x y : Reg) (s : State) : Host.Outcome State Fault Refusal :=
  .next (s.skipIf (s.reg x == s.reg y))

/-- 9xy0 SNE Vx, Vy (R117). -/
def execSneReg (x y : Reg) (s : State) : Host.Outcome State Fault Refusal :=
  .next (s.skipIf (s.reg x != s.reg y))

/-- Bnnn JP V0, nnn: the 16-bit sum, not reduced to 12 bits (R118). -/
def execJpV0 (nnn : Word) (s : State) : Host.Outcome State Fault Refusal :=
  .next (s.setPc (zext16 (s.reg 0) + nnn))

end Sys2Proof.Machine
end

