-- ==== Sys2Proof/Machine/IndexMemory.lean ====
section
/-! DEFINITION. Index register and memory instructions (spec/43_index_memory.md).  `I` is not changed by
Fx33, Fx55 and Fx65 (R155). -/

namespace Sys2Proof.Machine

/-- Annn LD I, nnn (R156). -/
def execLdI (nnn : Word) (s : State) : Host.Outcome State Fault Refusal := .next { s with i := nnn }

/-- Fx1E ADD I, Vx: wraps modulo 65536, no flag (R157). -/
def execAddI (x : Reg) (s : State) : Host.Outcome State Fault Refusal :=
  .next { s with i := s.i + zext16 (s.reg x) }

/-- Fx29 LD F, Vx: the 16-bit product, Vx not reduced to a nibble (R158). -/
def execLdF (x : Reg) (s : State) : Host.Outcome State Fault Refusal :=
  .next { s with i := zext16 (s.reg x) * 5 }

/-- Fx33 LD B, Vx (R159). -/
def execLdB (x : Reg) (s : State) : Host.Outcome State Fault Refusal :=
  finish (.ldB x) s (s.storeSpan s.dataAddr (decimalDigits (s.reg x)))

/-- Fx55 LD [I], Vx (R160). -/
def execStRegs (x : Reg) (s : State) : Host.Outcome State Fault Refusal :=
  finish (.stRegs x) s (s.storeSpan s.dataAddr (s.regValues x))

/-- Fx65 LD Vx, [I] (R161). -/
def execLdRegs (x : Reg) (s : State) : Host.Outcome State Fault Refusal :=
  finish (.ldRegs x) s
    ((s.loadSpan s.dataAddr (x.val + 1)).map fun bytes => s.setRegs (regsUpTo x) bytes)

end Sys2Proof.Machine
end

