-- ==== Sys2Proof/Machine/KeypadTimers.lean ====
section
/-! DEFINITION. Keypad and timer instructions (spec/44_keypad_timers.md). -/

namespace Sys2Proof.Machine

/-- Ex9E SKP Vx (R171). -/
def execSkp (x : Reg) (s : State) : Host.Outcome State Fault Refusal :=
  finish (.skp x) s ((s.keyLatch (s.reg x)).map fun down => s.skipIf down)

/-- ExA1 SKNP Vx (R172). -/
def execSknp (x : Reg) (s : State) : Host.Outcome State Fault Refusal :=
  finish (.sknp x) s ((s.keyLatch (s.reg x)).map fun down => s.skipIf (!down))

/-- Fx07 LD Vx, DT (R173). -/
def execLdVxDt (x : Reg) (s : State) : Host.Outcome State Fault Refusal := .next (s.setReg x s.dt)

/-- Fx0A LD Vx, K: the least pressed key, or the same instruction again at the next TICK (R174). -/
def execLdVxK (x : Reg) (s : State) : Host.Outcome State Fault Refusal :=
  match s.lowestKeyDown with
  | some k => .next (s.setReg x (BitVec.ofNat 8 k.val))
  | none => .next s.rewind

/-- Fx15 LD DT, Vx (R175). -/
def execLdDtVx (x : Reg) (s : State) : Host.Outcome State Fault Refusal :=
  .next { s with dt := s.reg x }

/-- Fx18 LD ST, Vx (R176). -/
def execLdStVx (x : Reg) (s : State) : Host.Outcome State Fault Refusal :=
  .next { s with st := s.reg x }

end Sys2Proof.Machine
end

