-- ==== Sys2Proof/Machine/Events.lean ====
section
/-! DEFINITION. The host events (spec/00_scope.md R11, spec/60_exceptions.md R200 to R209,
spec/70_reset_and_hazards.md R220 to R227), each one atomic change of state, and what each tells the host. -/

namespace Sys2Proof.Machine

/-- TICK(rnd) of R75: nothing when halted; otherwise fetch, decode, execute, the first check that fails
being the fault reported (R188).  A fetch fault leaves `pc` at A and has no opcode; a decode fault leaves
`pc` at A + 2 (R190). -/
def State.tick (rnd : Byte) (s : State) : Host.Outcome State Fault Refusal :=
  if s.halted then .next s
  else
    let s := { s with inp.rnd := rnd }
    match s.fetch with
    | .error c => .next (s.raise c none (some s.pc))
    | .ok (w, t) =>
      match decodeWord w with
      | .error _ => .next (t.raise (.invalidOpcode w) (some w) (some s.pc))
      | .ok instr => exec instr t

/-- One timer's decrement, which stops at 0 (R29, R202). -/
def countDown (b : Byte) : Byte := if b = 0 then 0 else b - 1

/-- TICK_TIMERS (R202): nothing when halted. -/
def State.tickTimers (s : State) : State :=
  if s.halted then s else { s with dt := countDown s.dt, st := countDown s.st }

/-- KEYPRESS(k, pressed) (R205): nothing when halted. -/
def State.keypress (k : Key) (pressed : Bool) (s : State) : State :=
  if s.halted then s else { s with key := s.key.set k.val pressed k.isLt }

/-- LOAD(bytes) (R224): nothing when halted; LoadOutOfBounds, with nothing copied, when the image does not
fit.  R227: this effect is defined in every state that is not halted, and `step` refuses the runs that raise it after
a TICK (log entry 4). -/
def State.load (bytes : List Byte) (s : State) : State :=
  if s.halted then s
  else if Config.progBase + bytes.length > Config.memSize then
    s.raise (.loadOutOfBounds bytes.length) none none
  else s.store Config.progBase bytes

/-- RESET (R220), in every state: the whole core, not the FONT and not the host's side. -/
def State.toReset (s : State) : State := State.resetWith s.font s.inp

/-- One host event (R11). -/
def State.raiseEvent (e : HostEvent) (s : State) : Host.Outcome State Fault Refusal :=
  match e with
  | .tick rnd => s.tick rnd
  | .tickTimers => .next s.tickTimers
  | .keypress k pressed => .next (s.keypress k pressed)
  | .load bytes => .next (s.load bytes)
  | .reset => .next s.toReset
  | .getDisplay => .next s

/-- Whether a TICK has happened since the last RESET, once the event has (R226, R227). -/
def tickedAfter (e : HostEvent) (ticked : Bool) : Bool :=
  match e with
  | .tick _ => true
  | .reset => false
  | .tickTimers => ticked
  | .keypress _ _ => ticked
  | .load _ => ticked
  | .getDisplay => ticked

/-- The next event of the host's schedule and the state with the schedule moved on.  When the schedule names
none, the host raises a TICK whose byte is free (log entry 3). -/
def State.takeEvent (s : State) : HostEvent × State :=
  match s.inp.events with
  | [] => (.tick (Config.randomByte s.inp.draws),
      { s with inp.draws := s.inp.draws + 1, inp.ticked := true })
  | e :: es => (e, { s with inp.events := es, inp.ticked := tickedAfter e s.inp.ticked })

/-- The event is a LOAD that the host is assumed never to raise (R209, R227): a TICK has happened since the last
RESET and the core still runs.  A halted core ignores a LOAD whenever it comes (R192). -/
def State.refusesLoad (s : State) (e : HostEvent) : Bool :=
  match e with
  | .load _ => s.inp.ticked && !s.halted
  | .tick _ => false
  | .tickTimers => false
  | .keypress _ _ => false
  | .reset => false
  | .getDisplay => false

/-! ### What an event tells the host -/

/-- The derived output `tone_edge` of a TICK_TIMERS event raised in this state (R202, R203;
UNVERIFIED, decision D22, log entry 13). -/
def State.toneEdge (s : State) : Bool := !s.halted && s.st == 1

/-- What GET_DISPLAY returns (R207); while halted the spec promises nothing, and there is no view (R192;
DESIGN CHOICE, log entry 12). -/
def State.displayView (s : State) : Option Display := if s.halted then none else some s.disp

/-- The fault record that an event leaves, if it raised a fault (R191). -/
def faultReport (before after : State) : Option FaultRecord :=
  if before.halted then none else after.fault

/-- What the host is told by an event. -/
inductive HostOutput where
  /-- nothing to report -/
  | silent
  /-- TICK_TIMERS: `tone_edge` (R203) -/
  | tone (edge : Bool)
  /-- GET_DISPLAY: the framebuffer (R207) -/
  | view (d : Display)
  /-- TICK or LOAD: the fault record (R191) -/
  | report (r : FaultRecord)
  deriving DecidableEq, Repr

/-- What the host is told when it raises `e` in state `s` and the core ends in `t`. -/
def hostOutput (e : HostEvent) (s t : State) : HostOutput :=
  match e with
  | .tickTimers => .tone s.toneEdge
  | .getDisplay => s.displayView.elim .silent .view
  | .tick _ => (faultReport s t).elim .silent .report
  | .load _ => (faultReport s t).elim .silent .report
  | .keypress _ _ => .silent
  | .reset => .silent

/-! ### Placing an instruction where the next step fetches it (DESIGN CHOICE, log entry 16) -/

/-- The event is a TICK. -/
def HostEvent.isTick : HostEvent → Bool
  | .tick _ => true
  | .tickTimers => false
  | .keypress _ _ => false
  | .load _ => false
  | .reset => false
  | .getDisplay => false

/-- The schedule from its first TICK on, so that the next step is a TICK. -/
def ticksNext (events : List HostEvent) : List HostEvent := events.dropWhile fun e => !e.isTick

/-- The address the next TICK fetches from, moved to 0x200 only when nothing can be fetched at `pc`. -/
def State.fetchAddr (s : State) : Word := if s.pc.toNat + 1 < Config.memSize then s.pc else 0x0200

/-- The word stored where the next step fetches, the core running and a TICK the next event. -/
def State.placeWord (s : State) (w : Word) : State :=
  { s with
    pc := s.fetchAddr
    fault := none
    mem := Memory.putAll s.font s.mem s.fetchAddr.toNat (bytesOfWord w)
    inp.events := ticksNext s.inp.events }

end Sys2Proof.Machine
end

