-- ==== Sys2Proof/Machine/Step.lean ====
section
/-! DEFINITION. One step: the host's next event, performed whole (spec/00_scope.md R11, spec/20_memory.md
R58). -/

namespace Sys2Proof.Machine

/-- One step of the machine: the next event of the host's schedule, a TICK when it names none.  A run in which the host
loads into a running program is refused (R227; log entry 4). -/
def step (s : State) : Host.Outcome State Fault Refusal :=
  if s.refusesLoad s.takeEvent.1 then .refused .loadAfterTick
  else s.takeEvent.2.raiseEvent s.takeEvent.1

/-- `s` with the instruction whose bits are `w` stored where the next step fetches, numbered as
spec/opcode_table.json numbers bits; the bits above `nbits` are 0. -/
def State.withFetchWord (s : State) (nbits w : Nat) : State :=
  s.placeWord (BitVec.ofNat 16 (w % 2 ^ nbits))

end Sys2Proof.Machine
end

