-- ==== Sys2Proof/Safety.lean ====
section
/-! DEFINITION. What counts as a safe run, and the invariants of the machine, in the terms that statements
use. -/

namespace Sys2Proof.Machine

/-- The core is running: no fault record (spec/10_state.md R33). -/
def State.running (s : State) : Prop := s.fault = none

/-- `n` host events performed from `s` on, if none of them ends outside the machine. -/
def runSteps : Nat → State → Option State
  | 0, s => some s
  | n + 1, s =>
    match step s with
    | .next t => runSteps n t
    | .fault _ => none
    | .refused _ => none

/-- A run of `n` events is safe: every state it passes is a running one.  A halted state is never a
successful end (spec/60_exceptions.md R192). -/
def safeRun : Nat → State → Prop
  | 0, s => s.running
  | n + 1, s => s.running ∧ ∃ t, step s = .next t ∧ safeRun n t

/-- The host keeps its duties on LOAD (spec/60_exceptions.md R209, spec/70_reset_and_hazards.md R224,
R227): each LOAD fits, and none follows a TICK with no RESET between.  `ticked` says that a TICK has
happened since the last RESET. -/
def hostKeepsLoadDuty : Bool → List HostEvent → Bool
  | _, [] => true
  | _, .tick _ :: es => hostKeepsLoadDuty true es
  | _, .reset :: es => hostKeepsLoadDuty false es
  | ticked, .load bytes :: es =>
    !ticked && decide (bytes.length ≤ 3584) && hostKeepsLoadDuty ticked es
  | ticked, .tickTimers :: es => hostKeepsLoadDuty ticked es
  | ticked, .keypress _ _ :: es => hostKeepsLoadDuty ticked es
  | ticked, .getDisplay :: es => hostKeepsLoadDuty ticked es

/-- Memory is in its canonical form. -/
def State.memoryCanonical (s : State) : Prop := Memory.wf s.font s.mem

/-- `pc` is at most 0x10FE, and every valid stack entry is at most 0x1000, an address that a call pushed
(spec/10_state.md R26, spec/41_flow.md R113). -/
def State.pcBounded (s : State) : Prop :=
  s.pc.toNat ≤ 0x10FE ∧ ∀ j (h : j < 16), j < s.sp.val → (s.stack[j]'h).toNat ≤ 0x1000

/-! ### The terms of the statements -/

/-- `n` TICK_TIMERS events in a row. -/
def timersTicked : Nat → State → State
  | 0, s => s
  | n + 1, s => timersTicked n s.tickTimers

/-- From `s` to `t` only registers of the list may have changed, and nothing else of the state. -/
def onlyRegsChange (s t : State) (xs : List Reg) : Prop :=
  (∀ r, r ∉ xs → t.reg r = s.reg r) ∧ t = { s with v := t.v }

/-- Executing `i`, fetched as the word `w` from address `a`, takes the fault `c`: the record holds the cause,
the word and the address, and nothing else of the state changes (spec/60_exceptions.md R189, R190). -/
def takesFault (i : Instr) (s : State) (c : FaultCause) : Prop :=
  ∀ w a, decodeWord w = .ok i → s.pc = a + 2 →
    exec i s = .next { s with fault := some { cause := c, opcode := some w, addr := some a } }

/-- The mask `m` of spec/40_display.md R103 for the sprite of `n` rows at `I`: the pixel at column `cx`, row
`cy` is under a set bit of the sprite drawn at `(vx, vy)`. -/
def spriteMask (s : State) (vx vy n cx cy : Nat) : Prop :=
  ∃ r, r < n ∧ ∃ c, c < 8 ∧ (s.byteAt (s.dataAddr + r)).getLsbD (7 - c) = true ∧
    cx = (vx + c) % 64 ∧ cy = (vy + r) % 32

/-- A lit pixel lies under the mask. -/
def spriteHits (s : State) (vx vy n : Nat) : Prop :=
  ∃ cx cy, spriteMask s vx vy n cx cy ∧ Display.pixel s.disp cx cy = true

end Sys2Proof.Machine
end

