-- ==== Sys2Proof/Certificates/Slice0/Obligations.lean ====
section
/-! DEFINITION. The statements for the provers.  Each formalises rules of spec/ or rests on them; each docstring
names them. -/

open Sys2Proof Sys2Proof.Machine

/-! ### Encoding and decoding (spec/30_encoding.md) -/

/-- No bit of an encoding is dropped: the word of every well-formed instruction decodes to it (R79, R91). -/
def Obligations.DecodeOfEncodeIsTheInstruction : Prop :=
  ∀ i : Instr, i.wellFormed = true → decodeWord (encode i) = .ok i

/-- A valid word decodes to a well-formed instruction whose word it is, the ignored y field of 8xy6 and 8xyE
written as 0.  That the encoder writes it as 0 is the model's choice (log entry 25, DEDUCED from the
convention of R89, decision D15). -/
def Obligations.EncodeOfDecodeIsTheCanonicalWord : Prop :=
  ∀ (w : Word) (i : Instr), decodeWord w = .ok i →
    i.wellFormed = true ∧
    ((∀ x, i ≠ .shr x ∧ i ≠ .shl x) → encode i = w) ∧
    ((∃ x, i = .shr x ∨ i = .shl x) → encode i = w &&& 0xFF0F)

/-- The y field of 8xy6 and 8xyE is a don't-care, and no other instruction has one (R84; the spec's decision D13, log
entry 18). -/
def Obligations.OnlyTheShiftsIgnoreAField : Prop :=
  (∀ w w' : Word, (w &&& 0xF00F = 0x8006 ∨ w &&& 0xF00F = 0x800E) → w &&& 0xFF0F = w' &&& 0xFF0F →
    decodeWord w = decodeWord w') ∧
  (∀ (w w' : Word) (i : Instr), decodeWord w = .ok i → decodeWord w' = .ok i →
    w = w' ∨ ∃ x, i = .shr x ∨ i = .shl x)

/-- A word selects the row of the opcode map for which `(w and mask) = match`, and decodes to that row's
instruction (R80); the 34 rows are pairwise disjoint as sets of words (R77). -/
def Obligations.WordSelectsItsRowOfTheOpcodeMap : Prop :=
  opcodeMap.length = 34 ∧
  (opcodeMap.Pairwise fun a b => ∀ w : Word, ¬(w &&& a.1 = a.2 ∧ w &&& b.1 = b.2)) ∧
  (∀ (w : Word) (i : Instr), decodeWord w = .ok i →
    (i.opMask, i.opMatch) ∈ opcodeMap ∧ w &&& i.opMask = i.opMatch) ∧
  (∀ row ∈ opcodeMap, ∀ w : Word, w &&& row.1 = row.2 →
    ∃ i, decodeWord w = .ok i ∧ i.opMask = row.1 ∧ i.opMatch = row.2)

/-- The words that decoding refuses, always by the name InvalidOpcode, are exactly the six classes of R86. -/
def Obligations.InvalidWordsAreTheSixClasses : Prop :=
  (∀ (w : Word) (e : DecodeError), decodeWord w = .error e → e = .invalidOpcode w) ∧
  ∀ w : Word, (∃ e, decodeWord w = .error e) ↔
    (w.toNat / 4096 = 0 ∧ w ≠ 0x00E0 ∧ w ≠ 0x00EE) ∨
    (w.toNat / 4096 = 5 ∧ w.toNat % 16 ≠ 0) ∨
    (w.toNat / 4096 = 8 ∧ w.toNat % 16 ∈ [0x8, 0x9, 0xA, 0xB, 0xC, 0xD, 0xF]) ∨
    (w.toNat / 4096 = 9 ∧ w.toNat % 16 ≠ 0) ∨
    (w.toNat / 4096 = 0xE ∧ w.toNat % 256 ∉ [0x9E, 0xA1]) ∨
    (w.toNat / 4096 = 0xF ∧
      w.toNat % 256 ∉ [0x07, 0x0A, 0x15, 0x18, 0x1E, 0x29, 0x33, 0x55, 0x65])

/-- The fields of R78, as numbers: d1 is `w[15:12]`, x is `w[11:8]`, y is `w[7:4]`, kk is `w[7:0]`, n is
`w[3:0]` and nnn is `w[11:0]`; an instruction is exactly one word, two bytes, the one at the lower address the high
one. -/
def Obligations.OperandsAreTheFieldsOfTheWord : Prop :=
  ∀ w : Word,
    (fieldD1 w).toNat = w.toNat / 4096 ∧
    (fieldX w).val = w.toNat / 256 % 16 ∧ (fieldY w).val = w.toNat / 16 % 16 ∧
    (fieldKk w).toNat = w.toNat % 256 ∧ (fieldN w).toNat = w.toNat % 16 ∧
    (fieldNnn w).toNat = w.toNat % 4096 ∧
    (∃ hi lo : Byte, bytesOfWord w = [hi, lo] ∧ w.toNat = hi.toNat * 256 + lo.toNat) ∧
    ∀ rest : List Byte, decodeBytes (bytesOfWord w ++ rest) = (decodeWord w).map fun i => (i, rest)

/-- One word of each family, its bits written out from the encoding of R80, and the instruction it stands for. -/
def Obligations.WrittenOutWordsDecode : Prop :=
  decodeWord 0b0000000011100000#16 = .ok .cls ∧
  decodeWord 0b0010001101000101#16 = .ok (.call 0x345) ∧
  decodeWord 0b0110101001110111#16 = .ok (.ldImm 0xA 0x77) ∧
  decodeWord 0b1000000100100101#16 = .ok (.sub 1 2) ∧
  decodeWord 0b1101001101000101#16 = .ok (.drw 3 4 5) ∧
  decodeWord 0b1110010110100001#16 = .ok (.sknp 5) ∧
  decodeWord 0b1111011001010101#16 = .ok (.stRegs 6) ∧
  decodeWord 0b0000000000000000#16 = .error (.invalidOpcode 0)

/-! ### The step, TICK and the faults (spec/30_encoding.md, spec/60_exceptions.md) -/

/-- When the word at `pc` decodes to `i` and the core runs, a step whose event is a TICK is `exec i` of the
state with `pc` past the word, that TICK's byte at the input `rnd`, the event taken off the schedule and noted
as a TICK. With no event left the step is a TICK too, with the next free byte: that is the model's choice (log
entry 3). -/
def Obligations.StepRunsTheDecodedInstruction : Prop :=
  ∀ (s : State) (i : Instr), s.fault = none → s.pc.toNat + 1 < 4096 →
    decodeWord (wordOfBytes (s.byteAt s.pc.toNat) (s.byteAt (s.pc.toNat + 1))) = .ok i →
    (∀ rnd es, s.inp.events = .tick rnd :: es →
      step s = exec i { s with
        pc := s.pc + 2, inp := { events := es, rnd := rnd, draws := s.inp.draws, ticked := true } }) ∧
    (s.inp.events = [] →
      step s = exec i { s with
        pc := s.pc + 2
        inp := { events := [], rnd := Config.randomByte s.inp.draws, draws := s.inp.draws + 1, ticked := true } })

/-- TICK(rnd): nothing when halted; a fetch beyond memory faults with `pc` not advanced and no opcode; the
word is the byte at `pc` times 256 plus the byte after it; an invalid word faults with `pc` advanced; a valid
one executes with `pc` advanced (R75, R76, R188).  The faults' entry is the spec's decisions D7, D10, D11 and D23 (log
entries 6, 10, 24). -/
def Obligations.TickFetchesDecodesAndExecutes : Prop :=
  ∀ (s : State) (rnd : Byte),
    (s.fault ≠ none → s.raiseEvent (.tick rnd) = .next s) ∧
    (s.fault = none → 4096 ≤ s.pc.toNat + 1 →
      s.raiseEvent (.tick rnd) = .next { s with
        fault := some { cause := .memoryOutOfBounds s.pc.toNat, opcode := none, addr := some s.pc }
        inp.rnd := rnd }) ∧
    ∀ w : Word, s.fault = none → s.pc.toNat + 1 < 4096 →
      w.toNat = (s.byteAt s.pc.toNat).toNat * 256 + (s.byteAt (s.pc.toNat + 1)).toNat →
      (∀ e, decodeWord w = .error e →
        s.raiseEvent (.tick rnd) = .next { s with
          pc := s.pc + 2
          fault := some { cause := .invalidOpcode w, opcode := some w, addr := some s.pc }
          inp.rnd := rnd }) ∧
      (∀ i, decodeWord w = .ok i →
        s.raiseEvent (.tick rnd) = exec i { s with pc := s.pc + 2, inp.rnd := rnd })

/-- What a step is, in every state (a TICK sets the note `ticked`, RESET clears it): a LOAD into a running core
after a TICK is refused, by name, and nothing else ever is; any other event of the schedule is performed; and
every step that is not refused answers a next state. That faults are next states is the model's choice (log
entry 6; decisions D10, D11), and so are the schedule and the refusal, which R227 asks for (log entries 3, 4;
decision D19). -/
def Obligations.StepsAnswerNextButForALateLoad : Prop :=
  (∀ ticked, (∀ rnd, tickedAfter (.tick rnd) ticked = true) ∧ tickedAfter .reset ticked = false ∧
    ∀ e, (∀ rnd, e ≠ .tick rnd) → e ≠ .reset → tickedAfter e ticked = ticked) ∧
  ∀ s : State,
    ((s.fault = none ∧ s.inp.ticked = true ∧ ∃ bytes es, s.inp.events = .load bytes :: es) →
      step s = .refused .loadAfterTick) ∧
    (¬ (s.fault = none ∧ s.inp.ticked = true ∧ ∃ bytes es, s.inp.events = .load bytes :: es) →
      (∃ t, step s = .next t) ∧
      ∀ e es, s.inp.events = e :: es →
        step s = State.raiseEvent e { s with
          inp := { s.inp with events := es, ticked := tickedAfter e s.inp.ticked } })

/-- While halted, no event but RESET changes any state: not TICK, TICK_TIMERS, KEYPRESS or LOAD (R192), and not
GET_DISPLAY (R33, R207).  RESET alone leaves.  The spec's decision D11 (log entry 6). -/
def Obligations.HaltedCoreIgnoresEveryEventButReset : Prop :=
  ∀ s : State, s.fault ≠ none →
    (∀ e, e ≠ .reset → s.raiseEvent e = .next s) ∧
    ∃ t, s.raiseEvent .reset = .next t ∧ t.fault = none

/-- A fault leaves no partial effect (R189, R190): the record apart, only `pc` and the input `rnd` differ. A
fetch fault leaves `pc` at A and has no opcode, any other fault of a TICK leaves it at A + 2 and records the
fetched word; both record A. A LOAD fault changes nothing else and records neither. The host is told the fault
record at the fault (R191), and at no other time. All of it rests on the spec's decisions D10, D11 and D12 (log
entries 5, 6, 10), the form of the report on log entry 22. -/
def Obligations.FaultsLeaveNoPartialEffect : Prop :=
  (∀ (s t : State) (f : FaultRecord), s.fault = none → t.fault = some f →
    (∀ rnd, s.raiseEvent (.tick rnd) = .next t →
      t = { s with fault := some f, pc := t.pc, inp.rnd := rnd } ∧ f.addr = some s.pc ∧
      (4096 ≤ s.pc.toNat + 1 → t.pc = s.pc ∧ f.opcode = none) ∧
      (s.pc.toNat + 1 < 4096 → t.pc = s.pc + 2 ∧
        f.opcode = some (wordOfBytes (s.byteAt s.pc.toNat) (s.byteAt (s.pc.toNat + 1))))) ∧
    (∀ bytes, s.raiseEvent (.load bytes) = .next t →
      t = { s with fault := some f } ∧ f.opcode = none ∧ f.addr = none) ∧
    (∀ e, s.raiseEvent e = .next t → hostOutput e s t = .report f)) ∧
  ∀ (s t : State) (e : HostEvent), s.raiseEvent e = .next t → s.fault ≠ none ∨ t.fault = none →
    ∀ f, hostOutput e s t ≠ .report f

/-- Which instruction raises what, and when (R186, R187): the eight that can fault at execute time do so
exactly on the conditions of R186, and the other 26 never; and each cause has its code number 1 to 6 (R33, R186;
decision D10, log entry 14).  That these conditions fault is the spec's decisions D6, D7
and D8 (log entries 9, 10, 11). -/
def Obligations.InstructionsFaultExactlyOnTheirConditions : Prop :=
  (∀ f : FaultRecord,
    ((∃ w, f.cause = .invalidOpcode w) ↔ f.code = 1) ∧
    ((∃ a, f.cause = .memoryOutOfBounds a) ↔ f.code = 2) ∧
    (f.cause = .stackOverflow ↔ f.code = 3) ∧ (f.cause = .stackUnderflow ↔ f.code = 4) ∧
    ((∃ k, f.cause = .keyIndexOutOfRange k) ↔ f.code = 5) ∧
    ((∃ len, f.cause = .loadOutOfBounds len) ↔ f.code = 6)) ∧
  ∀ (i : Instr) (s : State), s.fault = none →
    ∃ t, exec i s = .next t ∧
      t.fault.map FaultRecord.cause =
        match i with
        | .ret => if s.sp.val = 0 then some .stackUnderflow else none
        | .call _ => if s.sp.val = 16 then some .stackOverflow else none
        | .drw _ _ n =>
          if 0 < n ∧ 4096 ≤ s.i.toNat + n - 1 then some (.memoryOutOfBounds s.i.toNat) else none
        | .ldB _ => if 4096 ≤ s.i.toNat + 2 then some (.memoryOutOfBounds s.i.toNat) else none
        | .stRegs x => if 4096 ≤ s.i.toNat + x.val then some (.memoryOutOfBounds s.i.toNat) else none
        | .ldRegs x => if 4096 ≤ s.i.toNat + x.val then some (.memoryOutOfBounds s.i.toNat) else none
        | .skp x => if 16 ≤ (s.reg x).toNat then some (.keyIndexOutOfRange (s.reg x)) else none
        | .sknp x => if 16 ≤ (s.reg x).toNat then some (.keyIndexOutOfRange (s.reg x)) else none
        | _ => none

/-! ### What writes each part of the state (spec/10_state.md) -/

/-- The general registers each instruction may change (R23, its columns "writes" and "flag write to VF"; that
nothing else is written is also the spec's decision D13, log entry 18). -/
def Obligations.RegistersAreWrittenOnlyAsListed : Prop :=
  ∀ (i : Instr) (s t : State) (r : Reg), exec i s = .next t → t.reg r ≠ s.reg r →
    match i with
    | .ldImm x _ => r = x
    | .addImm x _ => r = x
    | .ldReg x _ => r = x
    | .orReg x _ => r = x
    | .andReg x _ => r = x
    | .xorReg x _ => r = x
    | .addReg x _ => r = x ∨ r = 15
    | .sub x _ => r = x ∨ r = 15
    | .shr x => r = x ∨ r = 15
    | .subn x _ => r = x ∨ r = 15
    | .shl x => r = x ∨ r = 15
    | .rnd x _ => r = x
    | .drw _ _ _ => r = 15
    | .ldVxDt x => r = x
    | .ldVxK x => r = x ∧ ∃ k : Key, s.key[k.val] = true
    | .ldRegs x => r ≤ x
    | _ => False

/-- How each instruction leaves `pc`, when it does not fault (R25); `s.pc` is A + 2. That the instruction faults
outside the ranges that 00EE, 2nnn, Ex9E and ExA1 name here is the spec's decisions D5, D6 and D8 (log entries
9, 11). -/
def Obligations.PcAfterEachInstruction : Prop :=
  ∀ (i : Instr) (s t : State), s.fault = none → exec i s = .next t → t.fault = none →
    match i with
    | .ret => ∃ j, ∃ h : j < 16, j + 1 = s.sp.val ∧ t.pc = s.stack[j]
    | .jp nnn => t.pc = nnn
    | .call nnn => t.pc = nnn ∧ ∃ h : s.sp.val < 16, t.stack[s.sp.val] = s.pc
    | .seImm x kk => t.pc = if s.reg x = kk then s.pc + 2 else s.pc
    | .sneImm x kk => t.pc = if s.reg x ≠ kk then s.pc + 2 else s.pc
    | .seReg x y => t.pc = if s.reg x = s.reg y then s.pc + 2 else s.pc
    | .sneReg x y => t.pc = if s.reg x ≠ s.reg y then s.pc + 2 else s.pc
    | .jpV0 nnn => nnn.toNat < 4096 → t.pc.toNat = (s.reg 0).toNat + nnn.toNat
    | .skp x => ∃ h : (s.reg x).toNat < 16,
        t.pc = if s.key[(s.reg x).toNat] = true then s.pc + 2 else s.pc
    | .sknp x => ∃ h : (s.reg x).toNat < 16,
        t.pc = if s.key[(s.reg x).toNat] = false then s.pc + 2 else s.pc
    | .ldVxK _ => ((∃ k : Key, s.key[k.val] = true) → t.pc = s.pc) ∧
        ((∀ k : Key, s.key[k.val] = false) → t.pc = s.pc - 2)
    | _ => t.pc = s.pc

/-- Only Annn, Fx1E and Fx29 change I (R27); only 2nnn and 00EE touch the stack and its pointer (R28; the
spec's decisions D5 and D13, log entries 9, 18). -/
def Obligations.IndexAndStackAreWrittenOnlyAsListed : Prop :=
  ∀ (i : Instr) (s t : State), exec i s = .next t →
    (t.i ≠ s.i → (∃ nnn, i = .ldI nnn) ∨ (∃ x, i = .addI x) ∨ ∃ x, i = .ldF x) ∧
    (t.sp ≠ s.sp ∨ t.stack ≠ s.stack → i = .ret ∨ ∃ nnn, i = .call nnn)

/-- DT and ST are written by Fx15 and Fx18 and decremented by TICK_TIMERS, never by another TICK (R29); the
key latches are written by KEYPRESS and RESET, and no instruction writes them (R30). -/
def Obligations.TimersAndKeysAreWrittenOnlyAsListed : Prop :=
  (∀ (i : Instr) (s t : State), exec i s = .next t →
    (t.dt ≠ s.dt → ∃ x, i = .ldDtVx x) ∧ (t.st ≠ s.st → ∃ x, i = .ldStVx x) ∧ t.key = s.key) ∧
  (∀ (e : HostEvent) (s t : State), s.raiseEvent e = .next t →
    (t.dt ≠ s.dt ∨ t.st ≠ s.st → (∃ rnd, e = .tick rnd) ∨ e = .tickTimers ∨ e = .reset) ∧
    (t.key ≠ s.key → (∃ k pressed, e = .keypress k pressed) ∨ e = .reset))

/-- The framebuffer is written by 00E0, Dxyn and RESET (R31), memory by Fx33, Fx55, LOAD and RESET (R32). -/
def Obligations.DisplayAndMemoryAreWrittenOnlyAsListed : Prop :=
  (∀ (i : Instr) (s t : State), exec i s = .next t →
    (t.disp ≠ s.disp → i = .cls ∨ ∃ x y n, i = .drw x y n) ∧
    (t.mem ≠ s.mem → (∃ x, i = .ldB x) ∨ ∃ x, i = .stRegs x)) ∧
  (∀ (e : HostEvent) (s t : State), s.raiseEvent e = .next t →
    (t.disp ≠ s.disp → (∃ rnd, e = .tick rnd) ∨ e = .reset) ∧
    (t.mem ≠ s.mem → (∃ rnd, e = .tick rnd) ∨ (∃ bytes, e = .load bytes) ∨ e = .reset))

/-! ### Invariants -/

/-- The two invariants of the model hold after RESET, whatever the FONT and the host's schedule. The canonical
form is the model's (log entry 15), and State.reset takes the FONT of log entry 1 and the host's side of log
entry 3. -/
def Obligations.ResetMeetsTheInvariants : Prop :=
  (∀ font inp, (State.resetWith font inp).memoryCanonical ∧ (State.resetWith font inp).pcBounded) ∧
  State.reset.memoryCanonical ∧ State.reset.pcBounded

/-- Every step keeps memory in its canonical form, inside the 4096 addresses.  The form is the model's
(log entry 15). -/
def Obligations.StepKeepsMemoryCanonical : Prop :=
  ∀ s t : State, s.memoryCanonical → step s = .next t → t.memoryCanonical

/-- Every step keeps `pc` at 0x10FE or below and every pushed return address at 0x1000 or below: the bound
that R26 and R113 derive. -/
def Obligations.StepKeepsPcBounded : Prop :=
  ∀ s t : State, s.pcBounded → step s = .next t → t.pcBounded

/-- The parameter FONT never changes (R34, R36); that the state holds it is the model's choice (log entry 1). -/
def Obligations.FontIsConstant : Prop :=
  ∀ s t : State, step s = .next t → t.font = s.font

/-! ### Memory (spec/20_memory.md) -/

/-- `MemRead(a, n)`: out of range exactly when `a + n - 1 >= 4096`, with no reduction of the address; else the
`8n`-bit number whose most significant byte is at the lowest address (R52; the range check is the spec's decision D7,
log entry 10). -/
def Obligations.MemReadIsBigEndianAndRangeChecked : Prop :=
  ∀ (s : State) (a n : Nat), 1 ≤ n →
    (4096 ≤ a + n - 1 → s.memRead a n = .error (.memoryOutOfBounds a)) ∧
    (a + n - 1 < 4096 → ∃ v, s.memRead a n = .ok v ∧ v < 256 ^ n ∧
      ∀ j, j < n → v / 256 ^ (n - 1 - j) % 256 = (s.byteAt (a + j)).toNat)

/-- `MemWrite(a, n, v)`: out of range as a read is, writing nothing; else byte `j` of the span receives bits
`8(n-j)-1` to `8(n-j-1)` of `v`, and every other address keeps its byte (R53; decisions D7 and D12, log entry 10). -/
def Obligations.MemWriteStoresMostSignificantByteFirst : Prop :=
  ∀ (s : State) (a n v : Nat), 1 ≤ n →
    (4096 ≤ a + n - 1 → s.memWrite a n v = .error (.memoryOutOfBounds a)) ∧
    (a + n - 1 < 4096 → ∃ t, s.memWrite a n v = .ok t ∧ t = { s with mem := t.mem } ∧
      (∀ j, j < n → (t.byteAt (a + j)).toNat = v / 256 ^ (n - 1 - j) % 256) ∧
      ∀ b, b < a ∨ a + n ≤ b → t.byteAt b = s.byteAt b)

/-- Bytes that Fx55 stores are the bytes the next fetch there returns, the byte of the lower-numbered register
as the high byte of the word (what R55 and R65 derive). -/
def Obligations.StoredBytesAreFetchedAtOnce : Prop :=
  ∀ (s : State) (x j k : Reg), s.dataAddr + x.val < 4096 → k.val = j.val + 1 → k ≤ x →
    ∃ t, exec (.stRegs x) s = .next t ∧
      ∀ a : Word, a.toNat = s.dataAddr + j.val →
        ∃ u, State.fetch { t with pc := a } = .ok (wordOfBytes (s.reg j) (s.reg k), u) ∧ u.pc = a + 2

/-! ### RESET and LOAD (spec/70_reset_and_hazards.md, spec/10_state.md) -/

/-- RESET, in every state, gives every element its reset value (R35, R220): FONT at 0x000 to 0x04F, 0x200 in
`pc`, 0 everywhere else, and no fault. -/
def Obligations.ResetGivesEveryElementItsValue : Prop :=
  ∀ s : State, ∃ t, s.raiseEvent .reset = .next t ∧
    (∀ r, t.reg r = 0) ∧ t.pc = 0x0200 ∧ t.i = 0 ∧ (∀ j (h : j < 16), t.stack[j] = 0) ∧ t.sp.val = 0 ∧
    t.dt = 0 ∧ t.st = 0 ∧ (∀ k (h : k < 16), t.key[k] = false) ∧ (∀ p, Display.bit t.disp p = false) ∧
    (∀ a (h : a < 80), t.byteAt a = s.font[a]) ∧ (∀ a, 80 ≤ a → t.byteAt a = 0) ∧ t.fault = none

/-- RESET after any events whatever gives the very state that RESET gives at once, the host's own schedule
apart (R221; the schedule is the model's, log entry 3). -/
def Obligations.ResetForgetsEveryRun : Prop :=
  ∀ (n : Nat) (s t : State), runSteps n s = some t →
    ∃ u v, s.raiseEvent .reset = .next u ∧ t.raiseEvent .reset = .next v ∧ v = { u with inp := v.inp }

/-- LOAD copies its bytes to 0x200 and up and touches nothing else; a longer image than 3584 bytes faults and
copies nothing; a halted core ignores it (R224).  That nothing is copied then is decisions D12 and D19 (log
entry 10); which LOADs a step performs is another statement (log entry 4). -/
def Obligations.LoadCopiesTheImage : Prop :=
  ∀ (s : State) (bytes : List Byte),
    (s.fault ≠ none → s.raiseEvent (.load bytes) = .next s) ∧
    (s.fault = none → 4096 < 0x200 + bytes.length →
      s.raiseEvent (.load bytes) = .next { s with
        fault := some { cause := .loadOutOfBounds bytes.length, opcode := none, addr := none } }) ∧
    (s.fault = none → 0x200 + bytes.length ≤ 4096 →
      ∃ t, s.raiseEvent (.load bytes) = .next t ∧ t = { s with mem := t.mem } ∧
        (∀ j (h : j < bytes.length), t.byteAt (0x200 + j) = bytes[j]) ∧
        ∀ a, a < 0x200 ∨ 0x200 + bytes.length ≤ a → t.byteAt a = s.byteAt a)

/-- Zeroed memory is invalid code: the first TICK after RESET with nothing loaded faults with
InvalidOpcode(0x0000) at 0x200 (what R88 derives); the record's fields and `pc` are R190's, decisions D10 and D11
(log entry 6). -/
def Obligations.ZeroedMemoryFaultsAtOnce : Prop :=
  ∀ (s t : State) (rnd : Byte), s.raiseEvent .reset = .next t →
    ∃ u, t.raiseEvent (.tick rnd) = .next u ∧
      u.fault = some { cause := .invalidOpcode 0, opcode := some 0, addr := some 0x0200 } ∧ u.pc = 0x0202

/-! ### Timers, keypad and display events (spec/60_exceptions.md) -/

/-- TICK_TIMERS decrements DT and ST independently by 1 if nonzero and changes nothing else; its output
`tone_edge` is true exactly when it finds ST = 1; a timer at N reaches 0 after exactly N events and stays there; a
halted core ignores it (R202).  That reading of the tone edge is the spec's decision D22 (R203, log entry 13), and the
halted core is decision D11 (log entry 6). -/
def Obligations.TickTimersDecrementsBothTimers : Prop :=
  ∀ s : State,
    (s.fault ≠ none → s.raiseEvent .tickTimers = .next s) ∧
    (s.fault = none →
      (∃ t, s.raiseEvent .tickTimers = .next t ∧ t = { s with dt := t.dt, st := t.st } ∧
        t.dt.toNat = s.dt.toNat - 1 ∧ t.st.toNat = s.st.toNat - 1 ∧
        (s.toneEdge = true ↔ s.st = 1) ∧ hostOutput .tickTimers s t = .tone s.toneEdge) ∧
      ∀ n, (timersTicked n s).dt.toNat = s.dt.toNat - n ∧ (timersTicked n s).st.toNat = s.st.toNat - n)

/-- ST at N gives exactly one tone edge, at the Nth TICK_TIMERS event, and none when N is 0.  That the edge is the
event that finds ST = 1 is the spec's reading, decision D22 (log entry 13). -/
def Obligations.OneToneEdgePerSetting : Prop :=
  ∀ (s : State) (k : Nat), s.fault = none →
    ((timersTicked k s).toneEdge = true ↔ k + 1 = s.st.toNat)

/-- KEYPRESS sets one latch and changes nothing else (R205; that the key number is below 16 by its type is the spec's
decision D18, log entry 21). -/
def Obligations.KeypressSetsOneLatch : Prop :=
  ∀ (s : State) (k : Key) (pressed : Bool), s.fault = none →
    ∃ t, s.raiseEvent (.keypress k pressed) = .next t ∧ t.key[k.val] = pressed ∧
      (∀ j : Key, j ≠ k → t.key[j.val] = s.key[j.val]) ∧ t = { s with key := t.key }

/-- GET_DISPLAY returns the framebuffer as it is and changes no state, and after RESET it is entirely unset (R207). -/
def Obligations.GetDisplayShowsTheFramebuffer : Prop :=
  ∀ s : State, s.raiseEvent .getDisplay = .next s ∧
    (s.fault = none → hostOutput .getDisplay s s = .view s.disp) ∧
    ∃ t d, s.raiseEvent .reset = .next t ∧ hostOutput .getDisplay t t = .view d ∧ ∀ p, Display.bit d p = false

/-! ### Display instructions (spec/40_display.md) -/

/-- 00E0 clears all 2048 pixels and changes nothing else (R101). -/
def Obligations.ClsClearsEveryPixel : Prop :=
  (∀ w : Word, w &&& 0xFFFF = 0x00E0 → decodeWord w = .ok .cls) ∧
  ∀ s : State, ∃ t, exec .cls s = .next t ∧ (∀ p, Display.bit t.disp p = false) ∧
    t = { s with disp := t.disp }

/-- Dxyn: the new framebuffer is the old one XOR the sprite mask, pixel by pixel, VF is 1 exactly when a lit
pixel lies under the mask, else 0, and nothing else changes (R102, R103).  The row count 0 draws nothing,
whatever I is; a sprite that would leave memory faults.  The bit order is the spec's decision D3 (log entry 7), the
fault D7 and D12 (log entry 10). -/
def Obligations.DrawXorsTheSpriteMask : Prop :=
  (∀ w : Word, w &&& 0xF000 = 0xD000 →
    decodeWord w = .ok (.drw (fieldX w) (fieldY w) (fieldN w).toNat)) ∧
  ∀ (x y : Reg) (n : Nat) (s : State), n < 16 →
    (0 < n → 4096 ≤ s.dataAddr + n - 1 →
      takesFault (.drw x y n) s (.memoryOutOfBounds s.dataAddr)) ∧
    (n = 0 ∨ s.dataAddr + n - 1 < 4096 →
      ∃ t, exec (.drw x y n) s = .next t ∧
        (∀ cx cy, cx < 64 → cy < 32 →
          (spriteMask s (s.reg x).toNat (s.reg y).toNat n cx cy →
            Display.pixel t.disp cx cy = !Display.pixel s.disp cx cy) ∧
          (¬ spriteMask s (s.reg x).toNat (s.reg y).toNat n cx cy →
            Display.pixel t.disp cx cy = Display.pixel s.disp cx cy)) ∧
        (spriteHits s (s.reg x).toNat (s.reg y).toNat n → t.reg 15 = 1) ∧
        (¬ spriteHits s (s.reg x).toNat (s.reg y).toNat n → t.reg 15 = 0) ∧
        (∀ r, r ≠ 15 → t.reg r = s.reg r) ∧ t = { s with v := t.v, disp := t.disp })

/-- Drawing the same sprite twice at the same place restores the framebuffer; from a clear display the first
draw reports no collision, and the second one reports it exactly when the sprite has a set bit; and draws of
different sprites commute as far as the framebuffer goes (what R103 derives; R102 case g). -/
def Obligations.DrawingIsAnInvolutionAndCommutes : Prop :=
  (∀ (s : State) (vx vy ux uy : Nat) (bs cs : List Byte),
    ((s.drawSprite vx vy bs).drawSprite ux uy cs).disp =
      ((s.drawSprite ux uy cs).drawSprite vx vy bs).disp) ∧
  ∀ (x y : Reg) (n : Nat) (s : State), x ≠ 15 → y ≠ 15 → n < 16 → n = 0 ∨ s.dataAddr + n - 1 < 4096 →
    ∃ t u, exec (.drw x y n) s = .next t ∧ exec (.drw x y n) t = .next u ∧ u.disp = s.disp ∧
      ((∀ p, Display.bit s.disp p = false) → t.reg 15 = 0 ∧
        (u.reg 15 = 1 ↔ ∃ r, r < n ∧ s.byteAt (s.dataAddr + r) ≠ 0))

/-! ### Control transfer (spec/41_flow.md) -/

/-- 00EE pops the return address into `pc`; on the empty stack it faults (R111; the fault is
the spec's decision D6, log entry 9). -/
def Obligations.RetPopsTheReturnAddress : Prop :=
  (∀ w : Word, w &&& 0xFFFF = 0x00EE → decodeWord w = .ok .ret) ∧
  ∀ s : State,
    (s.sp.val = 0 → takesFault .ret s .stackUnderflow) ∧
    (∀ j (h : j < 16), s.sp.val = j + 1 →
      ∃ t, exec .ret s = .next t ∧ t.pc = s.stack[j] ∧ t.sp.val = j ∧ t = { s with pc := t.pc, sp := t.sp })

/-- 1nnn jumps to nnn (R112); Bnnn jumps to V0 + nnn, not reduced to 12 bits (R118).  A target of 4095 or more makes
the next TICK fault with MemoryOutOfBounds: the spec's decision D7 (log entry 10). -/
def Obligations.JumpsSetThePc : Prop :=
  (∀ w : Word, w &&& 0xF000 = 0x1000 → decodeWord w = .ok (.jp (fieldNnn w))) ∧
  (∀ w : Word, w &&& 0xF000 = 0xB000 → decodeWord w = .ok (.jpV0 (fieldNnn w))) ∧
  (∀ (nnn : Word) (s : State), nnn.toNat < 4096 →
    exec (.jp nnn) s = .next { s with pc := nnn } ∧
    ∃ t, exec (.jpV0 nnn) s = .next t ∧ t.pc.toNat = (s.reg 0).toNat + nnn.toNat ∧ t = { s with pc := t.pc }) ∧
  ∀ (nnn : Word) (s t : State), nnn.toNat < 4096 → s.fault = none →
    exec (.jp nnn) s = .next t ∨ exec (.jpV0 nnn) s = .next t → 4095 ≤ t.pc.toNat →
    ∀ rnd, ∃ u, t.raiseEvent (.tick rnd) = .next u ∧
      u.fault = some { cause := .memoryOutOfBounds t.pc.toNat, opcode := none, addr := some t.pc }

/-- 2nnn pushes the advanced `pc` and jumps; with 16 entries in use it faults (R113; the fault is the spec's
decision D6, log entry 9). -/
def Obligations.CallPushesTheAdvancedPc : Prop :=
  (∀ w : Word, w &&& 0xF000 = 0x2000 → decodeWord w = .ok (.call (fieldNnn w))) ∧
  ∀ (nnn : Word) (s : State), nnn.toNat < 4096 →
    (s.sp.val = 16 → takesFault (.call nnn) s .stackOverflow) ∧
    (∀ h : s.sp.val < 16, ∃ t, exec (.call nnn) s = .next t ∧ t.pc = nnn ∧ t.sp.val = s.sp.val + 1 ∧
      t.stack[s.sp.val] = s.pc ∧ (∀ j (hj : j < 16), j ≠ s.sp.val → t.stack[j] = s.stack[j]) ∧
      t = { s with pc := t.pc, sp := t.sp, stack := t.stack })

/-- A return resumes at the instruction after its call, however the state has changed between, as long as the
stack is as the call left it (R111, R113). -/
def Obligations.ReturnResumesAfterTheCall : Prop :=
  ∀ (nnn : Word) (s t u : State), exec (.call nnn) s = .next t → s.fault = none → t.fault = none →
    u.stack = t.stack → u.sp = t.sp →
    ∃ v, exec .ret u = .next v ∧ v.pc = s.pc ∧ v.sp = s.sp ∧ v.fault = u.fault

/-- From the empty stack sixteen nested calls are legal, leaving `k` entries after `k` of them, and the
seventeenth faults (R113; the fault is decision D6, log entry 9). -/
def Obligations.SixteenNestedCallsAreLegal : Prop :=
  ∀ (target : Nat → Word) (s : State), s.sp.val = 0 → s.fault = none →
    ∃ f : Nat → State, f 0 = s ∧
      (∀ k, k < 16 → exec (.call (target k)) (f k) = .next (f (k + 1)) ∧ (f (k + 1)).sp.val = k + 1 ∧
        (f (k + 1)).fault = none) ∧
      ∃ u, exec (.call (target 16)) (f 16) = .next u ∧ u.fault.map FaultRecord.cause = some .stackOverflow

/-- 3xkk and 4xkk skip one instruction when Vx equals, differs from, kk; 5xy0 and 9xy0 when Vx equals, differs
from, Vy (R114, R115, R116, R117). -/
def Obligations.SkipsCompareTheirOperands : Prop :=
  (∀ w : Word, w &&& 0xF000 = 0x3000 → decodeWord w = .ok (.seImm (fieldX w) (fieldKk w))) ∧
  (∀ w : Word, w &&& 0xF000 = 0x4000 → decodeWord w = .ok (.sneImm (fieldX w) (fieldKk w))) ∧
  (∀ w : Word, w &&& 0xF00F = 0x5000 → decodeWord w = .ok (.seReg (fieldX w) (fieldY w))) ∧
  (∀ w : Word, w &&& 0xF00F = 0x9000 → decodeWord w = .ok (.sneReg (fieldX w) (fieldY w))) ∧
  ∀ (x y : Reg) (kk : Byte) (s : State),
    exec (.seImm x kk) s = .next { s with pc := if s.reg x = kk then s.pc + 2 else s.pc } ∧
    exec (.sneImm x kk) s = .next { s with pc := if s.reg x = kk then s.pc else s.pc + 2 } ∧
    exec (.seReg x y) s = .next { s with pc := if s.reg x = s.reg y then s.pc + 2 else s.pc } ∧
    exec (.sneReg x y) s = .next { s with pc := if s.reg x = s.reg y then s.pc else s.pc + 2 }

/-! ### Register load, arithmetic, logic, shift and random (spec/42_alu.md) -/

/-- 6xkk and 8xy0 load Vx and write nothing else (R131, R133). -/
def Obligations.LoadsWriteOneRegister : Prop :=
  (∀ w : Word, w &&& 0xF000 = 0x6000 → decodeWord w = .ok (.ldImm (fieldX w) (fieldKk w))) ∧
  (∀ w : Word, w &&& 0xF00F = 0x8000 → decodeWord w = .ok (.ldReg (fieldX w) (fieldY w))) ∧
  ∀ (x y : Reg) (kk : Byte) (s : State),
    (∃ t, exec (.ldImm x kk) s = .next t ∧ t.reg x = kk ∧ onlyRegsChange s t [x]) ∧
    (∃ t, exec (.ldReg x y) s = .next t ∧ t.reg x = s.reg y ∧ onlyRegsChange s t [x])

/-- 7xkk adds modulo 256 and sets no flag (R132). -/
def Obligations.AddImmediateWrapsWithoutFlag : Prop :=
  (∀ w : Word, w &&& 0xF000 = 0x7000 → decodeWord w = .ok (.addImm (fieldX w) (fieldKk w))) ∧
  ∀ (x : Reg) (kk : Byte) (s : State),
    ∃ t, exec (.addImm x kk) s = .next t ∧ (t.reg x).toNat = ((s.reg x).toNat + kk.toNat) % 256 ∧
      onlyRegsChange s t [x]

/-- 8xy1, 8xy2 and 8xy3 are the bitwise OR, AND and exclusive OR into Vx, and VF is not written as a flag
(R134, R135, R136; the last is the spec's decision D13, log entry 18). -/
def Obligations.LogicActsBitByBit : Prop :=
  (∀ w : Word, w &&& 0xF00F = 0x8001 → decodeWord w = .ok (.orReg (fieldX w) (fieldY w))) ∧
  (∀ w : Word, w &&& 0xF00F = 0x8002 → decodeWord w = .ok (.andReg (fieldX w) (fieldY w))) ∧
  (∀ w : Word, w &&& 0xF00F = 0x8003 → decodeWord w = .ok (.xorReg (fieldX w) (fieldY w))) ∧
  ∀ (x y : Reg) (s : State),
    (∃ t, exec (.orReg x y) s = .next t ∧ onlyRegsChange s t [x] ∧
      ∀ b, (t.reg x).getLsbD b = ((s.reg x).getLsbD b || (s.reg y).getLsbD b)) ∧
    (∃ t, exec (.andReg x y) s = .next t ∧ onlyRegsChange s t [x] ∧
      ∀ b, (t.reg x).getLsbD b = ((s.reg x).getLsbD b && (s.reg y).getLsbD b)) ∧
    (∃ t, exec (.xorReg x y) s = .next t ∧ onlyRegsChange s t [x] ∧
      ∀ b, (t.reg x).getLsbD b = ((s.reg x).getLsbD b ^^ (s.reg y).getLsbD b))

/-- 8xy4: the sum modulo 256 and the carry in VF, which wins when x = F (R137; for x = F the
spec's decision D9, log entry 8). -/
def Obligations.AddSetsTheCarry : Prop :=
  (∀ w : Word, w &&& 0xF00F = 0x8004 → decodeWord w = .ok (.addReg (fieldX w) (fieldY w))) ∧
  ∀ (x y : Reg) (s : State),
    ∃ t, exec (.addReg x y) s = .next t ∧ onlyRegsChange s t [x, 15] ∧
      (x ≠ 15 → (t.reg x).toNat = ((s.reg x).toNat + (s.reg y).toNat) % 256) ∧
      t.reg 15 = if 255 < (s.reg x).toNat + (s.reg y).toNat then 1 else 0

/-- 8xy5 and 8xy7: the difference modulo 256 and the no-borrow flag in VF, which wins when x = F (R138, R140; for
x = F decision D9, log entry 8). -/
def Obligations.SubtractionsSetNoBorrow : Prop :=
  (∀ w : Word, w &&& 0xF00F = 0x8005 → decodeWord w = .ok (.sub (fieldX w) (fieldY w))) ∧
  (∀ w : Word, w &&& 0xF00F = 0x8007 → decodeWord w = .ok (.subn (fieldX w) (fieldY w))) ∧
  ∀ (x y : Reg) (s : State),
    (∃ t, exec (.sub x y) s = .next t ∧ onlyRegsChange s t [x, 15] ∧
      (x ≠ 15 → (t.reg x).toNat = ((s.reg x).toNat + 256 - (s.reg y).toNat) % 256) ∧
      t.reg 15 = if (s.reg y).toNat ≤ (s.reg x).toNat then 1 else 0) ∧
    (∃ t, exec (.subn x y) s = .next t ∧ onlyRegsChange s t [x, 15] ∧
      (x ≠ 15 → (t.reg x).toNat = ((s.reg y).toNat + 256 - (s.reg x).toNat) % 256) ∧
      t.reg 15 = if (s.reg x).toNat ≤ (s.reg y).toNat then 1 else 0)

/-- 8xy6 and 8xyE: half and twice the old Vx modulo 256, the bit shifted out in VF, and the result wins when
x = F (R139, R141; for x = F decision D9, log entry 8). -/
def Obligations.ShiftsCatchTheBitShiftedOut : Prop :=
  (∀ w : Word, w &&& 0xF00F = 0x8006 → decodeWord w = .ok (.shr (fieldX w))) ∧
  (∀ w : Word, w &&& 0xF00F = 0x800E → decodeWord w = .ok (.shl (fieldX w))) ∧
  ∀ (x : Reg) (s : State),
    (∃ t, exec (.shr x) s = .next t ∧ onlyRegsChange s t [x, 15] ∧
      (t.reg x).toNat = (s.reg x).toNat / 2 ∧
      (x ≠ 15 → (t.reg 15).toNat = (s.reg x).toNat % 2)) ∧
    (∃ t, exec (.shl x) s = .next t ∧ onlyRegsChange s t [x, 15] ∧
      (t.reg x).toNat = (s.reg x).toNat * 2 % 256 ∧
      (x ≠ 15 → (t.reg 15).toNat = (s.reg x).toNat / 128))

/-- Cxkk: whatever the byte of this TICK is, Vx receives it masked by kk (R142).  That the byte stands
in the state is the model's choice (log entries 2, 3). -/
def Obligations.RndMasksTheRandomByte : Prop :=
  (∀ w : Word, w &&& 0xF000 = 0xC000 → decodeWord w = .ok (.rnd (fieldX w) (fieldKk w))) ∧
  ∀ (x : Reg) (kk byte : Byte) (s : State), s.inp.rnd = byte →
    ∃ t, exec (.rnd x kk) s = .next t ∧ onlyRegsChange s t [x] ∧
      ∀ b, (t.reg x).getLsbD b = (byte.getLsbD b && kk.getLsbD b)

/-! ### Index register and memory (spec/43_index_memory.md) -/

/-- Annn loads I and Fx1E adds Vx modulo 65536 with no flag; neither writes another thing (R156, R157). -/
def Obligations.IndexLoadAndAddWriteOnlyI : Prop :=
  (∀ w : Word, w &&& 0xF000 = 0xA000 → decodeWord w = .ok (.ldI (fieldNnn w))) ∧
  (∀ w : Word, w &&& 0xF0FF = 0xF01E → decodeWord w = .ok (.addI (fieldX w))) ∧
  ∀ (x : Reg) (nnn : Word) (s : State),
    exec (.ldI nnn) s = .next { s with i := nnn } ∧
    ∃ t, exec (.addI x) s = .next t ∧ t.i.toNat = (s.i.toNat + (s.reg x).toNat) % 65536 ∧
      t = { s with i := t.i }

/-- Fx29 makes the exact product 5 * Vx and writes nothing else.  That Vx is not reduced to a nibble is the spec's
decision D14 (log entry 18). -/
def Obligations.FontAddressIsTheExactProduct : Prop :=
  (∀ w : Word, w &&& 0xF0FF = 0xF029 → decodeWord w = .ok (.ldF (fieldX w))) ∧
  ∀ (x : Reg) (s : State),
    ∃ t, exec (.ldF x) s = .next t ∧ t.i.toNat = (s.reg x).toNat * 5 ∧ t = { s with i := t.i }

/-- Fx33 stores the hundreds, tens and ones of Vx at I, I + 1 and I + 2 and no other byte; it faults when
I + 2 is beyond memory (R159; the fault is decisions D7 and D12, log entry 10). -/
def Obligations.BcdStoresThreeDigits : Prop :=
  (∀ w : Word, w &&& 0xF0FF = 0xF033 → decodeWord w = .ok (.ldB (fieldX w))) ∧
  ∀ (x : Reg) (s : State),
    (4096 ≤ s.dataAddr + 2 → takesFault (.ldB x) s (.memoryOutOfBounds s.dataAddr)) ∧
    (s.dataAddr + 2 < 4096 → ∃ t, exec (.ldB x) s = .next t ∧ t = { s with mem := t.mem } ∧
      (t.byteAt s.dataAddr).toNat = (s.reg x).toNat / 100 ∧
      (t.byteAt (s.dataAddr + 1)).toNat = (s.reg x).toNat / 10 % 10 ∧
      (t.byteAt (s.dataAddr + 2)).toNat = (s.reg x).toNat % 10 ∧
      ∀ a, a < s.dataAddr ∨ s.dataAddr + 3 ≤ a → t.byteAt a = s.byteAt a)

/-- Fx55 stores V0 to Vx at I to I + x and no other byte; it faults when I + x is beyond memory (R160;
the fault is decisions D7 and D12, log entry 10). -/
def Obligations.StoreRegistersWritesTheSpan : Prop :=
  (∀ w : Word, w &&& 0xF0FF = 0xF055 → decodeWord w = .ok (.stRegs (fieldX w))) ∧
  ∀ (x : Reg) (s : State),
    (4096 ≤ s.dataAddr + x.val → takesFault (.stRegs x) s (.memoryOutOfBounds s.dataAddr)) ∧
    (s.dataAddr + x.val < 4096 → ∃ t, exec (.stRegs x) s = .next t ∧ t = { s with mem := t.mem } ∧
      (∀ j : Reg, j ≤ x → t.byteAt (s.dataAddr + j.val) = s.reg j) ∧
      ∀ a, a < s.dataAddr ∨ s.dataAddr + x.val < a → t.byteAt a = s.byteAt a)

/-- Fx65 loads V0 to Vx from I to I + x and changes nothing else; it faults when I + x is beyond memory
(R161; the fault is decisions D7 and D12, log entry 10). -/
def Obligations.LoadRegistersReadsTheSpan : Prop :=
  (∀ w : Word, w &&& 0xF0FF = 0xF065 → decodeWord w = .ok (.ldRegs (fieldX w))) ∧
  ∀ (x : Reg) (s : State),
    (4096 ≤ s.dataAddr + x.val → takesFault (.ldRegs x) s (.memoryOutOfBounds s.dataAddr)) ∧
    (s.dataAddr + x.val < 4096 → ∃ t, exec (.ldRegs x) s = .next t ∧ t = { s with v := t.v } ∧
      (∀ j : Reg, j ≤ x → t.reg j = s.byteAt (s.dataAddr + j.val)) ∧
      ∀ j : Reg, x < j → t.reg j = s.reg j)

/-- Storing V0..Vx and loading them back from the same address, whatever the registers held between,
reproduces the values (R160, R161). -/
def Obligations.StoreThenLoadRestoresTheRegisters : Prop :=
  ∀ (x : Reg) (s : State) (regs : Vector Byte 16), s.dataAddr + x.val < 4096 →
    ∃ t u, exec (.stRegs x) s = .next t ∧ exec (.ldRegs x) { t with v := regs } = .next u ∧
      ∀ j : Reg, j ≤ x → u.reg j = s.reg j

/-! ### Keypad and timer instructions (spec/44_keypad_timers.md) -/

/-- Ex9E and ExA1 skip when the key that the whole of Vx names is down, is up; a value of 16 or more faults
(R171, R172; the fault is the spec's decision D8, log entry 11). -/
def Obligations.KeySkipsReadTheLatch : Prop :=
  (∀ w : Word, w &&& 0xF0FF = 0xE09E → decodeWord w = .ok (.skp (fieldX w))) ∧
  (∀ w : Word, w &&& 0xF0FF = 0xE0A1 → decodeWord w = .ok (.sknp (fieldX w))) ∧
  ∀ (x : Reg) (s : State),
    (16 ≤ (s.reg x).toNat →
      takesFault (.skp x) s (.keyIndexOutOfRange (s.reg x)) ∧
      takesFault (.sknp x) s (.keyIndexOutOfRange (s.reg x))) ∧
    (∀ h : (s.reg x).toNat < 16,
      exec (.skp x) s = .next { s with pc := if s.key[(s.reg x).toNat] = true then s.pc + 2 else s.pc } ∧
      exec (.sknp x) s = .next { s with pc := if s.key[(s.reg x).toNat] = true then s.pc else s.pc + 2 })

/-- Fx07 reads DT, Fx15 writes DT, Fx18 writes ST, and nothing else changes (R173, R175, R176). -/
def Obligations.TimerInstructionsMoveOneByte : Prop :=
  (∀ w : Word, w &&& 0xF0FF = 0xF007 → decodeWord w = .ok (.ldVxDt (fieldX w))) ∧
  (∀ w : Word, w &&& 0xF0FF = 0xF015 → decodeWord w = .ok (.ldDtVx (fieldX w))) ∧
  (∀ w : Word, w &&& 0xF0FF = 0xF018 → decodeWord w = .ok (.ldStVx (fieldX w))) ∧
  ∀ (x : Reg) (s : State),
    (∃ t, exec (.ldVxDt x) s = .next t ∧ t.reg x = s.dt ∧ onlyRegsChange s t [x]) ∧
    exec (.ldDtVx x) s = .next { s with dt := s.reg x } ∧
    exec (.ldStVx x) s = .next { s with st := s.reg x }

/-- Fx0A stores the least index of a key that is down and goes on; with no key down it only rewinds `pc` by 2
(R174). -/
def Obligations.KeyWaitTakesTheLeastKey : Prop :=
  (∀ w : Word, w &&& 0xF0FF = 0xF00A → decodeWord w = .ok (.ldVxK (fieldX w))) ∧
  ∀ (x : Reg) (s : State),
    (∀ k : Key, s.key[k.val] = true → (∀ j : Key, j < k → s.key[j.val] = false) →
      ∃ t, exec (.ldVxK x) s = .next t ∧ (t.reg x).toNat = k.val ∧ onlyRegsChange s t [x]) ∧
    ((∀ k : Key, s.key[k.val] = false) → exec (.ldVxK x) s = .next { s with pc := s.pc - 2 })

/-- The key wait is a repeated execution and no state of its own: a TICK at a Fx0A with no key down leaves the
whole core as it was, `pc` included, so any number of TICKs does (R174 case a). -/
def Obligations.KeyWaitLeavesTheCoreAsItWas : Prop :=
  ∀ (s : State) (x : Reg) (rnd : Byte), s.fault = none → s.pc.toNat + 1 < 4096 →
    decodeWord (wordOfBytes (s.byteAt s.pc.toNat) (s.byteAt (s.pc.toNat + 1))) = .ok (.ldVxK x) →
    (∀ k : Key, s.key[k.val] = false) →
    s.raiseEvent (.tick rnd) = .next { s with inp.rnd := rnd }

/-! ### The host's duty (spec/60_exceptions.md R209, spec/70_reset_and_hazards.md R227) -/

/-- A host that keeps its duties on LOAD is never refused: from any state, every run of any length goes on, the duties
stay kept, and no LoadOutOfBounds comes up.  The duties are R209's and R227's; that the schedule stands in the state
and that a late LOAD is refused are the model's choices (log entries 3, 4). -/
def Obligations.HostDutyKeepsEveryRunGoing : Prop :=
  ∀ (n : Nat) (s : State), hostKeepsLoadDuty s.inp.ticked s.inp.events = true →
    ∃ t, runSteps n s = some t ∧ hostKeepsLoadDuty t.inp.ticked t.inp.events = true ∧
      ((∀ f len, s.fault = some f → f.cause ≠ .loadOutOfBounds len) →
        ∀ f len, t.fault = some f → f.cause ≠ .loadOutOfBounds len)
end

