-- ==== Sys2Proof/Laws/Decode.lean ====
section
/-! SUPPORT. The fields of a word: what a mask fixes, what the formats hold, and when two words are equal. -/

namespace Sys2Proof

/-! ### The fields as numbers (R78) -/

theorem fieldD1_toNat (w : Word) : (fieldD1 w).toNat = w.toNat / 4096 := by
  have := w.isLt
  simp [fieldD1, Nat.shiftRight_eq_div_pow]
  omega

theorem fieldX_val (w : Word) : (fieldX w).val = w.toNat / 256 % 16 := by
  show (w.extractLsb' 8 4).toNat = _
  simp [Nat.shiftRight_eq_div_pow]

theorem fieldY_val (w : Word) : (fieldY w).val = w.toNat / 16 % 16 := by
  show (w.extractLsb' 4 4).toNat = _
  simp [Nat.shiftRight_eq_div_pow]

theorem fieldN_toNat (w : Word) : (fieldN w).toNat = w.toNat % 16 := by
  simp [fieldN]

theorem fieldKk_toNat (w : Word) : (fieldKk w).toNat = w.toNat % 256 := by
  simp [fieldKk]

theorem fieldNnn_toNat (w : Word) : (fieldNnn w).toNat = w.toNat % 4096 := by
  simp [fieldNnn]
  omega

/-! ### The formats as numbers (R79) -/

theorem toNat_append_eq {n m : Nat} (a : BitVec n) (b : BitVec m) :
    (a ++ b).toNat = a.toNat * 2 ^ m + b.toNat := by
  rw [BitVec.toNat_append, ← Nat.shiftLeft_add_eq_or_of_lt b.isLt, Nat.shiftLeft_eq]

theorem formatA_toNat (op : BitVec 4) (nnn : Word) :
    (formatA op nnn).toNat = op.toNat * 4096 + nnn.toNat % 4096 := by
  show (op ++ nnn.setWidth 12 : BitVec (4 + 12)).toNat = _
  rw [toNat_append_eq, BitVec.toNat_setWidth]
  norm_num

theorem nibbleOf_toNat (x : Reg) : (nibbleOf x).toNat = x.val := by
  have := x.isLt
  simp [nibbleOf]

theorem formatI_toNat (op : BitVec 4) (x : Reg) (kk : Byte) :
    (formatI op x kk).toNat = op.toNat * 4096 + x.val * 256 + kk.toNat := by
  show (op ++ nibbleOf x ++ kk : BitVec (4 + 4 + 8)).toNat = _
  simp only [toNat_append_eq, nibbleOf_toNat]
  omega

theorem formatR_toNat (op : BitVec 4) (x y : Reg) (n : BitVec 4) :
    (formatR op x y n).toNat = op.toNat * 4096 + x.val * 256 + y.val * 16 + n.toNat := by
  show (op ++ nibbleOf x ++ nibbleOf y ++ n : BitVec (4 + 4 + 4 + 4)).toNat = _
  simp only [toNat_append_eq, nibbleOf_toNat]
  omega

/-! ### The fields of an encoded word -/

theorem fieldD1_formatA (op : BitVec 4) (nnn : Word) : fieldD1 (formatA op nnn) = op := by
  have := op.isLt
  have := nnn.isLt
  apply BitVec.eq_of_toNat_eq
  rw [fieldD1_toNat, formatA_toNat]
  omega

theorem fieldD1_formatI (op : BitVec 4) (x : Reg) (kk : Byte) : fieldD1 (formatI op x kk) = op := by
  have := op.isLt
  have := x.isLt
  have := kk.isLt
  apply BitVec.eq_of_toNat_eq
  rw [fieldD1_toNat, formatI_toNat]
  omega

theorem fieldX_formatI (op : BitVec 4) (x : Reg) (kk : Byte) : fieldX (formatI op x kk) = x := by
  have := op.isLt
  have := x.isLt
  have := kk.isLt
  apply Fin.ext
  rw [fieldX_val, formatI_toNat]
  omega

theorem fieldKk_formatI (op : BitVec 4) (x : Reg) (kk : Byte) : fieldKk (formatI op x kk) = kk := by
  have := op.isLt
  have := x.isLt
  have := kk.isLt
  apply BitVec.eq_of_toNat_eq
  rw [fieldKk_toNat, formatI_toNat]
  omega

theorem fieldD1_formatR (op : BitVec 4) (x y : Reg) (n : BitVec 4) : fieldD1 (formatR op x y n) = op := by
  have := op.isLt
  have := x.isLt
  have := y.isLt
  have := n.isLt
  apply BitVec.eq_of_toNat_eq
  rw [fieldD1_toNat, formatR_toNat]
  omega

theorem fieldX_formatR (op : BitVec 4) (x y : Reg) (n : BitVec 4) : fieldX (formatR op x y n) = x := by
  have := op.isLt
  have := x.isLt
  have := y.isLt
  have := n.isLt
  apply Fin.ext
  rw [fieldX_val, formatR_toNat]
  omega

theorem fieldY_formatR (op : BitVec 4) (x y : Reg) (n : BitVec 4) : fieldY (formatR op x y n) = y := by
  have := op.isLt
  have := x.isLt
  have := y.isLt
  have := n.isLt
  apply Fin.ext
  rw [fieldY_val, formatR_toNat]
  omega

theorem fieldN_formatR (op : BitVec 4) (x y : Reg) (n : BitVec 4) : fieldN (formatR op x y n) = n := by
  have := op.isLt
  have := x.isLt
  have := y.isLt
  have := n.isLt
  apply BitVec.eq_of_toNat_eq
  rw [fieldN_toNat, formatR_toNat]
  omega

theorem fieldNnn_formatA (op : BitVec 4) {nnn : Word} (h : nnn.toNat < 4096) :
    fieldNnn (formatA op nnn) = nnn := by
  apply BitVec.eq_of_toNat_eq
  rw [fieldNnn_toNat, formatA_toNat]
  omega

/-- The major opcode that the last arm of the decoder is left with. -/
theorem nibble_eq_F {d : BitVec 4} (h : ∀ n : Nat, n < 15 → d.toNat ≠ n) : d = 0xF#4 := by
  have hd := d.isLt
  have : ¬ d.toNat < 15 := fun hlt => h _ hlt rfl
  apply BitVec.eq_of_toNat_eq
  show d.toNat = 15
  omega

/-! ### What a mask and match of R80 fix -/

theorem extractLsb'_eq_of_and {w m v : Word} (lo len : Nat) (h : w &&& m = v)
    (hm : m.extractLsb' lo len = BitVec.allOnes len) : w.extractLsb' lo len = v.extractLsb' lo len := by
  have := congrArg (BitVec.extractLsb' lo len) h
  rw [BitVec.extractLsb'_and, hm, BitVec.and_allOnes] at this
  exact this

theorem fieldD1_of_and {w m v : Word} (h : w &&& m = v) (hm : fieldD1 m = 0xF#4) : fieldD1 w = fieldD1 v :=
  extractLsb'_eq_of_and 12 4 h hm

theorem fieldN_of_and {w m v : Word} (h : w &&& m = v) (hm : fieldN m = 0xF#4) : fieldN w = fieldN v :=
  extractLsb'_eq_of_and 0 4 h hm

theorem fieldKk_of_and {w m v : Word} (h : w &&& m = v) (hm : fieldKk m = 0xFF#8) : fieldKk w = fieldKk v :=
  extractLsb'_eq_of_and 0 8 h hm

/-! ### A word is its fields -/

theorem word_eq_formatA (w : Word) : w = formatA (fieldD1 w) (fieldNnn w) := by
  apply BitVec.eq_of_toNat_eq
  rw [formatA_toNat, fieldD1_toNat, fieldNnn_toNat]
  omega

theorem word_eq_formatI (w : Word) : w = formatI (fieldD1 w) (fieldX w) (fieldKk w) := by
  apply BitVec.eq_of_toNat_eq
  rw [formatI_toNat, fieldD1_toNat, fieldX_val, fieldKk_toNat]
  omega

theorem word_eq_formatR (w : Word) : w = formatR (fieldD1 w) (fieldX w) (fieldY w) (fieldN w) := by
  apply BitVec.eq_of_toNat_eq
  rw [formatR_toNat, fieldD1_toNat, fieldX_val, fieldY_val, fieldN_toNat]
  omega

end Sys2Proof
end

