-- ==== Sys2Proof/Laws/State.lean ====
section
/-! SUPPORT. What each update of the state does to each field, so that no later proof unfolds a record
update. -/

namespace Sys2Proof.Machine

variable (s : State)

/-! ### State.setReg -/

@[simp] theorem State.setReg_v (x : Reg) (b : Byte) : (s.setReg x b).v = s.v.set x.val b x.isLt := rfl
@[simp] theorem State.setReg_pc (x : Reg) (b : Byte) : (s.setReg x b).pc = s.pc := rfl
@[simp] theorem State.setReg_i (x : Reg) (b : Byte) : (s.setReg x b).i = s.i := rfl
@[simp] theorem State.setReg_stack (x : Reg) (b : Byte) : (s.setReg x b).stack = s.stack := rfl
@[simp] theorem State.setReg_sp (x : Reg) (b : Byte) : (s.setReg x b).sp = s.sp := rfl
@[simp] theorem State.setReg_dt (x : Reg) (b : Byte) : (s.setReg x b).dt = s.dt := rfl
@[simp] theorem State.setReg_st (x : Reg) (b : Byte) : (s.setReg x b).st = s.st := rfl
@[simp] theorem State.setReg_key (x : Reg) (b : Byte) : (s.setReg x b).key = s.key := rfl
@[simp] theorem State.setReg_disp (x : Reg) (b : Byte) : (s.setReg x b).disp = s.disp := rfl
@[simp] theorem State.setReg_mem (x : Reg) (b : Byte) : (s.setReg x b).mem = s.mem := rfl
@[simp] theorem State.setReg_fault (x : Reg) (b : Byte) : (s.setReg x b).fault = s.fault := rfl
@[simp] theorem State.setReg_font (x : Reg) (b : Byte) : (s.setReg x b).font = s.font := rfl
@[simp] theorem State.setReg_inp (x : Reg) (b : Byte) : (s.setReg x b).inp = s.inp := rfl

/-! ### State.setPc -/

@[simp] theorem State.setPc_v (t : Word) : (s.setPc t).v = s.v := rfl
@[simp] theorem State.setPc_pc (t : Word) : (s.setPc t).pc = t := rfl
@[simp] theorem State.setPc_i (t : Word) : (s.setPc t).i = s.i := rfl
@[simp] theorem State.setPc_stack (t : Word) : (s.setPc t).stack = s.stack := rfl
@[simp] theorem State.setPc_sp (t : Word) : (s.setPc t).sp = s.sp := rfl
@[simp] theorem State.setPc_dt (t : Word) : (s.setPc t).dt = s.dt := rfl
@[simp] theorem State.setPc_st (t : Word) : (s.setPc t).st = s.st := rfl
@[simp] theorem State.setPc_key (t : Word) : (s.setPc t).key = s.key := rfl
@[simp] theorem State.setPc_disp (t : Word) : (s.setPc t).disp = s.disp := rfl
@[simp] theorem State.setPc_mem (t : Word) : (s.setPc t).mem = s.mem := rfl
@[simp] theorem State.setPc_fault (t : Word) : (s.setPc t).fault = s.fault := rfl
@[simp] theorem State.setPc_font (t : Word) : (s.setPc t).font = s.font := rfl
@[simp] theorem State.setPc_inp (t : Word) : (s.setPc t).inp = s.inp := rfl

/-! ### State.skip -/

@[simp] theorem State.skip_v : (s.skip).v = s.v := rfl
@[simp] theorem State.skip_pc : (s.skip).pc = s.pc + 2 := rfl
@[simp] theorem State.skip_i : (s.skip).i = s.i := rfl
@[simp] theorem State.skip_stack : (s.skip).stack = s.stack := rfl
@[simp] theorem State.skip_sp : (s.skip).sp = s.sp := rfl
@[simp] theorem State.skip_dt : (s.skip).dt = s.dt := rfl
@[simp] theorem State.skip_st : (s.skip).st = s.st := rfl
@[simp] theorem State.skip_key : (s.skip).key = s.key := rfl
@[simp] theorem State.skip_disp : (s.skip).disp = s.disp := rfl
@[simp] theorem State.skip_mem : (s.skip).mem = s.mem := rfl
@[simp] theorem State.skip_fault : (s.skip).fault = s.fault := rfl
@[simp] theorem State.skip_font : (s.skip).font = s.font := rfl
@[simp] theorem State.skip_inp : (s.skip).inp = s.inp := rfl

/-! ### State.rewind -/

@[simp] theorem State.rewind_v : (s.rewind).v = s.v := rfl
@[simp] theorem State.rewind_pc : (s.rewind).pc = s.pc - 2 := rfl
@[simp] theorem State.rewind_i : (s.rewind).i = s.i := rfl
@[simp] theorem State.rewind_stack : (s.rewind).stack = s.stack := rfl
@[simp] theorem State.rewind_sp : (s.rewind).sp = s.sp := rfl
@[simp] theorem State.rewind_dt : (s.rewind).dt = s.dt := rfl
@[simp] theorem State.rewind_st : (s.rewind).st = s.st := rfl
@[simp] theorem State.rewind_key : (s.rewind).key = s.key := rfl
@[simp] theorem State.rewind_disp : (s.rewind).disp = s.disp := rfl
@[simp] theorem State.rewind_mem : (s.rewind).mem = s.mem := rfl
@[simp] theorem State.rewind_fault : (s.rewind).fault = s.fault := rfl
@[simp] theorem State.rewind_font : (s.rewind).font = s.font := rfl
@[simp] theorem State.rewind_inp : (s.rewind).inp = s.inp := rfl

/-! ### State.store -/

@[simp] theorem State.store_v (a : Nat) (bytes : List Byte) : (s.store a bytes).v = s.v := rfl
@[simp] theorem State.store_pc (a : Nat) (bytes : List Byte) : (s.store a bytes).pc = s.pc := rfl
@[simp] theorem State.store_i (a : Nat) (bytes : List Byte) : (s.store a bytes).i = s.i := rfl
@[simp] theorem State.store_stack (a : Nat) (bytes : List Byte) : (s.store a bytes).stack = s.stack := rfl
@[simp] theorem State.store_sp (a : Nat) (bytes : List Byte) : (s.store a bytes).sp = s.sp := rfl
@[simp] theorem State.store_dt (a : Nat) (bytes : List Byte) : (s.store a bytes).dt = s.dt := rfl
@[simp] theorem State.store_st (a : Nat) (bytes : List Byte) : (s.store a bytes).st = s.st := rfl
@[simp] theorem State.store_key (a : Nat) (bytes : List Byte) : (s.store a bytes).key = s.key := rfl
@[simp] theorem State.store_disp (a : Nat) (bytes : List Byte) : (s.store a bytes).disp = s.disp := rfl
@[simp] theorem State.store_mem (a : Nat) (bytes : List Byte) : (s.store a bytes).mem = Memory.putAll s.font s.mem a bytes := rfl
@[simp] theorem State.store_fault (a : Nat) (bytes : List Byte) : (s.store a bytes).fault = s.fault := rfl
@[simp] theorem State.store_font (a : Nat) (bytes : List Byte) : (s.store a bytes).font = s.font := rfl
@[simp] theorem State.store_inp (a : Nat) (bytes : List Byte) : (s.store a bytes).inp = s.inp := rfl

/-! ### State.raise -/

@[simp] theorem State.raise_v (c : FaultCause) (o a : Option Word) : (s.raise c o a).v = s.v := rfl
@[simp] theorem State.raise_pc (c : FaultCause) (o a : Option Word) : (s.raise c o a).pc = s.pc := rfl
@[simp] theorem State.raise_i (c : FaultCause) (o a : Option Word) : (s.raise c o a).i = s.i := rfl
@[simp] theorem State.raise_stack (c : FaultCause) (o a : Option Word) : (s.raise c o a).stack = s.stack := rfl
@[simp] theorem State.raise_sp (c : FaultCause) (o a : Option Word) : (s.raise c o a).sp = s.sp := rfl
@[simp] theorem State.raise_dt (c : FaultCause) (o a : Option Word) : (s.raise c o a).dt = s.dt := rfl
@[simp] theorem State.raise_st (c : FaultCause) (o a : Option Word) : (s.raise c o a).st = s.st := rfl
@[simp] theorem State.raise_key (c : FaultCause) (o a : Option Word) : (s.raise c o a).key = s.key := rfl
@[simp] theorem State.raise_disp (c : FaultCause) (o a : Option Word) : (s.raise c o a).disp = s.disp := rfl
@[simp] theorem State.raise_mem (c : FaultCause) (o a : Option Word) : (s.raise c o a).mem = s.mem := rfl
@[simp] theorem State.raise_fault (c : FaultCause) (o a : Option Word) : (s.raise c o a).fault = some { cause := c, opcode := o, addr := a } := rfl
@[simp] theorem State.raise_font (c : FaultCause) (o a : Option Word) : (s.raise c o a).font = s.font := rfl
@[simp] theorem State.raise_inp (c : FaultCause) (o a : Option Word) : (s.raise c o a).inp = s.inp := rfl

/-! ### State.raiseIn -/

@[simp] theorem State.raiseIn_v (c : FaultCause) (i : Instr) : (s.raiseIn c i).v = s.v := rfl
@[simp] theorem State.raiseIn_pc (c : FaultCause) (i : Instr) : (s.raiseIn c i).pc = s.pc := rfl
@[simp] theorem State.raiseIn_i (c : FaultCause) (i : Instr) : (s.raiseIn c i).i = s.i := rfl
@[simp] theorem State.raiseIn_stack (c : FaultCause) (i : Instr) : (s.raiseIn c i).stack = s.stack := rfl
@[simp] theorem State.raiseIn_sp (c : FaultCause) (i : Instr) : (s.raiseIn c i).sp = s.sp := rfl
@[simp] theorem State.raiseIn_dt (c : FaultCause) (i : Instr) : (s.raiseIn c i).dt = s.dt := rfl
@[simp] theorem State.raiseIn_st (c : FaultCause) (i : Instr) : (s.raiseIn c i).st = s.st := rfl
@[simp] theorem State.raiseIn_key (c : FaultCause) (i : Instr) : (s.raiseIn c i).key = s.key := rfl
@[simp] theorem State.raiseIn_disp (c : FaultCause) (i : Instr) : (s.raiseIn c i).disp = s.disp := rfl
@[simp] theorem State.raiseIn_mem (c : FaultCause) (i : Instr) : (s.raiseIn c i).mem = s.mem := rfl
@[simp] theorem State.raiseIn_fault (c : FaultCause) (i : Instr) : (s.raiseIn c i).fault = some { cause := c, opcode := some (encode i), addr := some (s.pc - 2) } := rfl
@[simp] theorem State.raiseIn_font (c : FaultCause) (i : Instr) : (s.raiseIn c i).font = s.font := rfl
@[simp] theorem State.raiseIn_inp (c : FaultCause) (i : Instr) : (s.raiseIn c i).inp = s.inp := rfl

/-! ### State.toReset -/

@[simp] theorem State.toReset_v : (s.toReset).v = Vector.replicate 16 0 := rfl
@[simp] theorem State.toReset_pc : (s.toReset).pc = 0x0200 := rfl
@[simp] theorem State.toReset_i : (s.toReset).i = 0 := rfl
@[simp] theorem State.toReset_stack : (s.toReset).stack = Vector.replicate 16 0 := rfl
@[simp] theorem State.toReset_sp : (s.toReset).sp = 0 := rfl
@[simp] theorem State.toReset_dt : (s.toReset).dt = 0 := rfl
@[simp] theorem State.toReset_st : (s.toReset).st = 0 := rfl
@[simp] theorem State.toReset_key : (s.toReset).key = Vector.replicate 16 false := rfl
@[simp] theorem State.toReset_disp : (s.toReset).disp = Vector.replicate 32 0 := rfl
@[simp] theorem State.toReset_mem : (s.toReset).mem = [] := rfl
@[simp] theorem State.toReset_fault : (s.toReset).fault = none := rfl
@[simp] theorem State.toReset_font : (s.toReset).font = s.font := rfl
@[simp] theorem State.toReset_inp : (s.toReset).inp = s.inp := rfl

/-! ### State.skipIf: only `pc` -/

theorem State.skipIf_eq (c : Bool) : s.skipIf c = { s with pc := if c then s.pc + 2 else s.pc } := by
  cases c <;> rfl

@[simp] theorem State.skipIf_v (c : Bool) : (s.skipIf c).v = s.v := by rw [State.skipIf_eq]
@[simp] theorem State.skipIf_pc (c : Bool) : (s.skipIf c).pc = (if c then s.pc + 2 else s.pc) := by rw [State.skipIf_eq]
@[simp] theorem State.skipIf_i (c : Bool) : (s.skipIf c).i = s.i := by rw [State.skipIf_eq]
@[simp] theorem State.skipIf_stack (c : Bool) : (s.skipIf c).stack = s.stack := by rw [State.skipIf_eq]
@[simp] theorem State.skipIf_sp (c : Bool) : (s.skipIf c).sp = s.sp := by rw [State.skipIf_eq]
@[simp] theorem State.skipIf_dt (c : Bool) : (s.skipIf c).dt = s.dt := by rw [State.skipIf_eq]
@[simp] theorem State.skipIf_st (c : Bool) : (s.skipIf c).st = s.st := by rw [State.skipIf_eq]
@[simp] theorem State.skipIf_key (c : Bool) : (s.skipIf c).key = s.key := by rw [State.skipIf_eq]
@[simp] theorem State.skipIf_disp (c : Bool) : (s.skipIf c).disp = s.disp := by rw [State.skipIf_eq]
@[simp] theorem State.skipIf_mem (c : Bool) : (s.skipIf c).mem = s.mem := by rw [State.skipIf_eq]
@[simp] theorem State.skipIf_fault (c : Bool) : (s.skipIf c).fault = s.fault := by rw [State.skipIf_eq]
@[simp] theorem State.skipIf_font (c : Bool) : (s.skipIf c).font = s.font := by rw [State.skipIf_eq]
@[simp] theorem State.skipIf_inp (c : Bool) : (s.skipIf c).inp = s.inp := by rw [State.skipIf_eq]

/-! ### General registers -/

@[simp] theorem State.reg_setReg_self (x : Reg) (b : Byte) : (s.setReg x b).reg x = b := by
  simp [State.reg, State.setReg]

theorem State.reg_setReg_ne {x y : Reg} (h : y ≠ x) (b : Byte) : (s.setReg x b).reg y = s.reg y := by
  have : x.val ≠ y.val := fun e => h (Fin.ext e.symm)
  simp [State.reg, State.setReg, this]

theorem State.reg_setReg (x y : Reg) (b : Byte) :
    (s.setReg x b).reg y = if y = x then b else s.reg y := by
  split
  · next h => subst h; simp
  · next h => exact s.reg_setReg_ne h b

/-- Two states with the same registers, read one by one, have the same register file. -/
theorem State.v_ext {s t : State} (h : ∀ x, s.reg x = t.reg x) : s.v = t.v := by
  apply Vector.ext
  intro j hj
  exact h ⟨j, hj⟩

/-- States that agree on `v` agree on every register. -/
theorem State.reg_of_v {s t : State} (h : s.v = t.v) (x : Reg) : s.reg x = t.reg x := by
  simp [State.reg, h]

theorem State.setReg_setReg_self (x : Reg) (b c : Byte) :
    (s.setReg x b).setReg x c = s.setReg x c := by
  simp [State.setReg]

/-! ### The flag orders (spec/42_alu.md R143) -/

theorem State.resultThenFlag_reg (x y : Reg) (r f : Byte) :
    (s.resultThenFlag x r f).reg y = if y = regVF then f else if y = x then r else s.reg y := by
  simp only [State.resultThenFlag, State.reg_setReg]

theorem State.flagThenResult_reg (x y : Reg) (r f : Byte) :
    (s.flagThenResult x r f).reg y = if y = x then r else if y = regVF then f else s.reg y := by
  simp only [State.flagThenResult, State.reg_setReg]

theorem State.resultThenFlag_frame (x : Reg) (r f : Byte) :
    s.resultThenFlag x r f = { s with v := (s.resultThenFlag x r f).v } := rfl

theorem State.flagThenResult_frame (x : Reg) (r f : Byte) :
    s.flagThenResult x r f = { s with v := (s.flagThenResult x r f).v } := rfl

/-- Loading registers changes the register file only. -/
theorem State.setRegs_frame (xs : List Reg) (bs : List Byte) :
    s.setRegs xs bs = { s with v := (s.setRegs xs bs).v } := by
  induction xs generalizing s bs with
  | nil => cases bs <;> rfl
  | cons x xs ih =>
    cases bs with
    | nil => rfl
    | cons b bs => rw [State.setRegs, ih]; rfl

end Sys2Proof.Machine
end

