-- ==== Sys2Proof/Laws/Memory.lean ====
section
/-! SUPPORT. The laws of memory: read after write, and the canonical form that every write keeps. -/

namespace Sys2Proof.Machine

variable (font : Font)

theorem Memory.unlisted_of_le {a : Nat} (h : 80 ≤ a) : Memory.unlisted font a = 0 := by
  simp [Memory.unlisted, Nat.not_lt.mpr h]

/-! ### Read after write -/

theorem Memory.get_filter_self (m : Memory) (a : Nat) :
    Memory.get font (m.filter fun c => c.1 != a) a = Memory.unlisted font a := by
  induction m with
  | nil => rfl
  | cons c m ih =>
    rw [List.filter_cons]
    split
    · next h => simp_all [Memory.get]
    · exact ih

theorem Memory.get_filter_ne (m : Memory) {a b : Nat} (h : b ≠ a) :
    Memory.get font (m.filter fun c => c.1 != a) b = Memory.get font m b := by
  induction m with
  | nil => rfl
  | cons c m ih =>
    rw [List.filter_cons]
    split
    · simp [Memory.get, ih]
    · next hc =>
      have : c.1 ≠ b := by simp at hc; omega
      simp [Memory.get, ih, this]

theorem Memory.get_insert_self (m : Memory) (a : Nat) (w : Byte) (hm : ∀ c ∈ m, c.1 ≠ a) :
    Memory.get font (Memory.insert m a w) a = w := by
  induction m with
  | nil => simp [Memory.insert, Memory.get]
  | cons c m ih =>
    rw [Memory.insert]
    split
    · simp [Memory.get]
    · rw [Memory.get, if_neg (hm c (by simp)), ih fun d hd => hm d (by simp [hd])]

theorem Memory.get_insert_ne (m : Memory) {a b : Nat} (h : b ≠ a) (w : Byte) :
    Memory.get font (Memory.insert m a w) b = Memory.get font m b := by
  induction m with
  | nil => simp [Memory.insert, Memory.get, Ne.symm h]
  | cons c m ih =>
    rw [Memory.insert]
    split
    · simp [Memory.get, Ne.symm h]
    · simp [Memory.get, ih]

@[simp] theorem Memory.get_put_self (m : Memory) (a : Nat) (w : Byte) :
    Memory.get font (Memory.put font m a w) a = w := by
  unfold Memory.put
  split
  · next h => rw [Memory.get_filter_self, h]
  · exact Memory.get_insert_self font _ a w (by simp)

theorem Memory.get_put_ne (m : Memory) {a b : Nat} (h : b ≠ a) (w : Byte) :
    Memory.get font (Memory.put font m a w) b = Memory.get font m b := by
  unfold Memory.put
  split
  · exact Memory.get_filter_ne font m h
  · simp only [Memory.get_insert_ne font _ h, Memory.get_filter_ne font m h]

theorem Memory.get_put (m : Memory) (a b : Nat) (w : Byte) :
    Memory.get font (Memory.put font m a w) b = if b = a then w else Memory.get font m b := by
  split
  · next h => subst h; simp
  · next h => exact Memory.get_put_ne font m h w

/-- Everything that a run of writes does: byte `j` of the run at `a + j`, every other address as before. -/
theorem Memory.get_putAll (m : Memory) (a b : Nat) (ws : List Byte) :
    Memory.get font (Memory.putAll font m a ws) b
      = if h : a ≤ b ∧ b - a < ws.length then ws[b - a]'h.2 else Memory.get font m b := by
  induction ws generalizing m a with
  | nil => simp [Memory.putAll]
  | cons w ws ih =>
    rw [Memory.putAll, ih, Memory.get_put]
    rcases Nat.lt_trichotomy b a with h | h | h
    · rw [dif_neg (by omega), dif_neg (by omega), if_neg (by omega)]
    · subst h
      simp
    · have e : b - a = (b - (a + 1)) + 1 := by omega
      by_cases hb : b - (a + 1) < ws.length
      · rw [dif_pos ⟨by omega, hb⟩, dif_pos ⟨by omega, by simp; omega⟩]
        simp [e]
      · rw [dif_neg (by omega), dif_neg (by simp; omega), if_neg (by omega)]

/-! ### The canonical form -/

theorem Memory.mem_insert {m : Memory} {a : Nat} {w : Byte} {c : Host.Cell} :
    c ∈ Memory.insert m a w ↔ c = (a, w) ∨ c ∈ m := by
  induction m with
  | nil => simp [Memory.insert]
  | cons d m ih =>
    rw [Memory.insert]
    split
    · simp
    · simp only [List.mem_cons, ih]
      tauto

theorem Memory.pairwise_insert {m : Memory} {a : Nat} {w : Byte} (hne : ∀ c ∈ m, c.1 ≠ a)
    (hm : m.Pairwise fun c d => c.1 < d.1) :
    (Memory.insert m a w).Pairwise fun c d => c.1 < d.1 := by
  induction m with
  | nil => simp [Memory.insert]
  | cons d m ih =>
    obtain ⟨hd, hm⟩ := List.pairwise_cons.mp hm
    rw [Memory.insert]
    split
    · next h =>
      refine List.pairwise_cons.mpr ⟨?_, List.pairwise_cons.mpr ⟨hd, hm⟩⟩
      intro c hc
      rcases List.mem_cons.mp hc with rfl | hc
      · exact h
      · exact Nat.lt_trans h (hd c hc)
    · next h =>
      refine List.pairwise_cons.mpr ⟨?_, ih (fun c hc => hne c (by simp [hc])) hm⟩
      intro c hc
      rcases Memory.mem_insert.mp hc with rfl | hc
      · have := hne d (by simp)
        show d.1 < a
        omega
      · exact hd c hc

theorem Memory.wf_nil : Memory.wf font [] := by simp [Memory.wf]

/-- A write inside memory keeps the canonical form. -/
theorem Memory.wf_put {m : Memory} (hm : Memory.wf font m) {a : Nat} (ha : a < 4096) (w : Byte) :
    Memory.wf font (Memory.put font m a w) := by
  obtain ⟨hs, hc⟩ := hm
  have hf : (m.filter fun c => c.1 != a).Pairwise fun c d => c.1 < d.1 := hs.sublist List.filter_sublist
  have hc' : ∀ c ∈ m.filter fun c => c.1 != a, c.1 < 4096 ∧ c.2 ≠ Memory.unlisted font c.1 :=
    fun c h => hc c (List.mem_filter.mp h).1
  unfold Memory.put
  split
  · exact ⟨hf, hc'⟩
  · next hw =>
    refine ⟨Memory.pairwise_insert (by simp) hf, ?_⟩
    intro c h
    rcases Memory.mem_insert.mp h with rfl | h
    · exact ⟨ha, hw⟩
    · exact hc' c h

/-- A run of writes inside memory keeps the canonical form. -/
theorem Memory.wf_putAll {m : Memory} (hm : Memory.wf font m) {a : Nat} {ws : List Byte}
    (ha : a + ws.length ≤ 4096) : Memory.wf font (Memory.putAll font m a ws) := by
  induction ws generalizing m a with
  | nil => exact hm
  | cons w ws ih =>
    simp only [List.length_cons] at ha
    exact ih (Memory.wf_put font hm (by omega) w) (by omega)

/-- In canonical form, memories that read alike are the same list. -/
theorem Memory.get_of_mem {m : Memory} (hm : Memory.wf font m) {c : Host.Cell} (h : c ∈ m) :
    Memory.get font m c.1 = c.2 := by
  induction m with
  | nil => simp at h
  | cons d m ih =>
    obtain ⟨hs, hc⟩ := hm
    obtain ⟨hd, hs⟩ := List.pairwise_cons.mp hs
    rcases List.mem_cons.mp h with rfl | h
    · simp [Memory.get]
    · rw [Memory.get, if_neg (Nat.ne_of_lt (hd c h))]
      exact ih ⟨hs, fun e he => hc e (by simp [he])⟩ h

theorem Memory.get_of_not_mem {m : Memory} {a : Nat} (h : ∀ c ∈ m, c.1 ≠ a) :
    Memory.get font m a = Memory.unlisted font a := by
  induction m with
  | nil => rfl
  | cons d m ih =>
    rw [Memory.get, if_neg (h d (by simp)), ih fun c hc => h c (by simp [hc])]

/-! ### The same at the level of the state -/

theorem State.byteAt_store (s : State) (a b : Nat) (ws : List Byte) :
    (s.store a ws).byteAt b
      = if h : a ≤ b ∧ b - a < ws.length then ws[b - a]'h.2 else s.byteAt b :=
  Memory.get_putAll s.font s.mem a b ws

/-- A byte is read from `mem` and `font` only. -/
theorem State.byteAt_congr {s t : State} (hf : t.font = s.font) (hm : t.mem = s.mem) (a : Nat) :
    t.byteAt a = s.byteAt a := by
  simp [State.byteAt, hf, hm]

theorem State.byteAt_resetWith (font : Font) (inp : Inputs) (a : Nat) :
    (State.resetWith font inp).byteAt a = if h : a < 80 then font[a] else 0 := rfl

end Sys2Proof.Machine
end

