-- ==== Sys2Proof/Laws/Ops.lean ====
section
/-! SUPPORT. One lemma for each shared operation, saying once everything it can do. -/

namespace Sys2Proof.Machine

variable (s : State)

/-! ### Spans -/

theorem spanInRange_iff (a n : Nat) : spanInRange a n = true ↔ n = 0 ∨ a + n ≤ 4096 := by
  simp [spanInRange, Config.memSize]
  omega

theorem State.loadSpan_ok {a n : Nat} (h : n = 0 ∨ a + n ≤ 4096) :
    s.loadSpan a n = .ok ((List.range n).map fun j => s.byteAt (a + j)) := by
  rw [State.loadSpan, if_pos ((spanInRange_iff a n).mpr h)]

theorem State.loadSpan_error {a n : Nat} (h0 : n ≠ 0) (h : 4096 < a + n) :
    s.loadSpan a n = .error (.memoryOutOfBounds a) := by
  rw [State.loadSpan, if_neg]
  rw [spanInRange_iff]
  omega

theorem State.storeSpan_ok {a : Nat} {ws : List Byte} (h : ws.length = 0 ∨ a + ws.length ≤ 4096) :
    s.storeSpan a ws = .ok (s.store a ws) := by
  rw [State.storeSpan, if_pos ((spanInRange_iff a _).mpr h)]

theorem State.storeSpan_error {a : Nat} {ws : List Byte} (h0 : ws.length ≠ 0) (h : 4096 < a + ws.length) :
    s.storeSpan a ws = .error (.memoryOutOfBounds a) := by
  rw [State.storeSpan, if_neg]
  rw [spanInRange_iff]
  omega

/-- What a store that answers a state can have done: the span was in range, and the bytes went there. -/
theorem State.storeSpan_inv {a : Nat} {ws : List Byte} {t : State} (h : s.storeSpan a ws = .ok t) :
    (ws.length = 0 ∨ a + ws.length ≤ 4096) ∧ t = s.store a ws := by
  unfold State.storeSpan at h
  split at h
  · next hr => exact ⟨(spanInRange_iff _ _).mp hr, by simpa using h.symm⟩
  · simp at h

/-! ### Big-endian numbers (R52, R53) -/

theorem bigEndian_foldl (bs : List Byte) (acc : Nat) :
    bs.foldl (fun acc b => acc * 256 + b.toNat) acc = acc * 256 ^ bs.length + bigEndian bs := by
  induction bs generalizing acc with
  | nil => simp [bigEndian]
  | cons b bs ih =>
    simp only [List.foldl_cons, List.length_cons, bigEndian]
    rw [ih, ih (0 * 256 + b.toNat)]
    ring

theorem bigEndian_cons (b : Byte) (bs : List Byte) :
    bigEndian (b :: bs) = b.toNat * 256 ^ bs.length + bigEndian bs := by
  simp [bigEndian, bigEndian_foldl bs b.toNat]

theorem bigEndian_lt (bs : List Byte) : bigEndian bs < 256 ^ bs.length := by
  induction bs with
  | nil => simp [bigEndian]
  | cons b bs ih =>
    have hb := b.isLt
    rw [bigEndian_cons, List.length_cons, pow_succ]
    nlinarith

@[simp] theorem bigEndianBytes_length (n v : Nat) : (bigEndianBytes n v).length = n := by
  simp [bigEndianBytes]

/-! ### Fetch (R76) -/

theorem State.memRead_two {a : Nat} (h : a + 1 < 4096) :
    s.memRead a 2 = .ok ((s.byteAt a).toNat * 256 + (s.byteAt (a + 1)).toNat) := by
  rw [State.memRead, State.loadSpan_ok s (by omega)]
  simp [Except.map, bigEndian, List.range_succ]

theorem wordOfBytes_toNat (hi lo : Byte) : (wordOfBytes hi lo).toNat = hi.toNat * 256 + lo.toNat := by
  have h : hi.toNat <<< 8 ||| lo.toNat = hi.toNat <<< 8 + lo.toNat :=
    (Nat.shiftLeft_add_eq_or_of_lt lo.isLt hi.toNat).symm
  have : (wordOfBytes hi lo).toNat = hi.toNat <<< 8 ||| lo.toNat := BitVec.toNat_append ..
  rw [this, h, Nat.shiftLeft_eq]

theorem wordOfBytes_eq_ofNat (hi lo : Byte) :
    BitVec.ofNat 16 (hi.toNat * 256 + lo.toNat) = wordOfBytes hi lo := by
  apply BitVec.eq_of_toNat_eq
  rw [wordOfBytes_toNat]
  have := hi.isLt
  have := lo.isLt
  simp only [BitVec.toNat_ofNat]
  omega

theorem State.fetch_ok (h : s.pc.toNat + 1 < 4096) :
    s.fetch = .ok (wordOfBytes (s.byteAt s.pc.toNat) (s.byteAt (s.pc.toNat + 1)), { s with pc := s.pc + 2 }) := by
  rw [State.fetch, State.memRead_two s h]
  simp only [Except.map, wordOfBytes_eq_ofNat]

theorem State.fetch_error (h : 4096 ≤ s.pc.toNat + 1) :
    s.fetch = .error (.memoryOutOfBounds s.pc.toNat) := by
  rw [State.fetch, State.memRead, State.loadSpan_error s (by omega) (by omega)]
  rfl

/-! ### The stack -/

theorem State.push_ok {t : Word} (h : s.sp.val < 16) :
    s.push t = .ok { s with stack := s.stack.set s.sp.val t h, sp := ⟨s.sp.val + 1, by omega⟩ } := by
  rw [State.push, dif_pos h]

theorem State.push_error {t : Word} (h : s.sp.val = 16) : s.push t = .error .stackOverflow := by
  rw [State.push, dif_neg (by omega)]

theorem State.pop_ok (h : s.sp.val ≠ 0) :
    s.pop = .ok (s.stack[s.sp.val - 1], { s with sp := ⟨s.sp.val - 1, by omega⟩ }) := by
  rw [State.pop, dif_neg h]

theorem State.pop_error (h : s.sp.val = 0) : s.pop = .error .stackUnderflow := by
  rw [State.pop, dif_pos h]

/-! ### Keys -/

theorem State.keyLatch_ok {k : Byte} (h : k.toNat < 16) : s.keyLatch k = .ok s.key[k.toNat] := by
  rw [State.keyLatch, dif_pos h]

theorem State.keyLatch_error {k : Byte} (h : 16 ≤ k.toNat) :
    s.keyLatch k = .error (.keyIndexOutOfRange k) := by
  rw [State.keyLatch, dif_neg (by omega)]

theorem allRegs_eq_finRange : allRegs = List.finRange 16 := by decide

theorem mem_allRegs (x : Reg) : x ∈ allRegs := by
  rw [allRegs_eq_finRange]
  exact List.mem_finRange x

theorem State.lowestKeyDown_none : s.lowestKeyDown = none ↔ ∀ k : Key, s.key[k.val] = false := by
  simp [State.lowestKeyDown, mem_allRegs]

theorem State.lowestKeyDown_some {k : Key} :
    s.lowestKeyDown = some k ↔ s.key[k.val] = true ∧ ∀ j : Key, j < k → s.key[j.val] = false := by
  rw [State.lowestKeyDown, allRegs_eq_finRange, List.find?_eq_some_iff_getElem]
  simp only [List.getElem_finRange, List.length_finRange]
  constructor
  · rintro ⟨hk, i, hi, rfl, hj⟩
    refine ⟨hk, fun j hjk => ?_⟩
    have := hj j.val (Fin.lt_def.mp hjk)
    simpa using this
  · rintro ⟨hk, hj⟩
    refine ⟨hk, k.val, k.isLt, by simp, fun j hjk => ?_⟩
    simpa using hj ⟨j, by omega⟩ hjk

/-! ### Register ranges -/

@[simp] theorem regsUpTo_length (x : Reg) : (regsUpTo x).length = x.val + 1 := by
  have := x.isLt
  simp [regsUpTo, allRegs]
  omega

theorem regsUpTo_getElem (x : Reg) (j : Nat) (h : j < (regsUpTo x).length) :
    (regsUpTo x)[j] = ⟨j, by simp at h; omega⟩ := by
  simp [regsUpTo, allRegs_eq_finRange]

@[simp] theorem State.regValues_length (x : Reg) : (s.regValues x).length = x.val + 1 := by
  simp [State.regValues]

theorem State.regValues_getElem (x : Reg) (j : Nat) (h : j < (s.regValues x).length) :
    (s.regValues x)[j] = s.reg ⟨j, by simp at h; omega⟩ := by
  simp [State.regValues, regsUpTo_getElem]

/-- A register that the list names once receives the byte at its place. -/
theorem State.setRegs_reg_notMem (xs : List Reg) (bs : List Byte) {r : Reg} (h : r ∉ xs) :
    (s.setRegs xs bs).reg r = s.reg r := by
  induction xs generalizing s bs with
  | nil => cases bs <;> rfl
  | cons x xs ih =>
    cases bs with
    | nil => rfl
    | cons b bs =>
      rw [State.setRegs, ih _ _ (fun hm => h (List.mem_cons_of_mem _ hm))]
      exact s.reg_setReg_ne (fun e => h (by simp [e])) b

theorem State.setRegs_reg_getElem (xs : List Reg) (bs : List Byte) (hx : xs.Nodup)
    (hl : xs.length = bs.length) (j : Nat) (hj : j < xs.length) :
    (s.setRegs xs bs).reg xs[j] = bs[j] := by
  induction xs generalizing s bs j with
  | nil => simp at hj
  | cons x xs ih =>
    cases bs with
    | nil => simp at hl
    | cons b bs =>
      obtain ⟨hn, hx⟩ := List.nodup_cons.mp hx
      rw [State.setRegs]
      cases j with
      | zero =>
        rw [List.getElem_cons_zero, State.setRegs_reg_notMem _ _ _ hn]
        simp
      | succ j => simpa using ih _ _ hx (by simpa using hl) j (by simpa using hj)

theorem regsUpTo_nodup (x : Reg) : (regsUpTo x).Nodup := by
  rw [regsUpTo, allRegs_eq_finRange]
  exact (List.nodup_finRange 16).sublist (List.take_sublist _ _)

theorem mem_regsUpTo {x r : Reg} : r ∈ regsUpTo x ↔ r ≤ x := by
  constructor
  · intro h
    obtain ⟨j, hj, rfl⟩ := List.getElem_of_mem h
    rw [regsUpTo_getElem, Fin.le_def]
    simp at hj
    show j ≤ x.val
    omega
  · intro h
    have hl : r.val < (regsUpTo x).length := by
      rw [regsUpTo_length]
      have := Fin.le_def.mp h
      omega
    have := List.getElem_mem hl
    rwa [regsUpTo_getElem] at this

/-- Loading V0..Vx from bytes: byte `j` into `Vj`, the registers above Vx as they were. -/
theorem State.setRegs_regsUpTo (x : Reg) (f : Nat → Byte) (r : Reg) :
    (s.setRegs (regsUpTo x) ((List.range (x.val + 1)).map f)).reg r
      = if r ≤ x then f r.val else s.reg r := by
  split
  · next h =>
    have hl : r.val < (regsUpTo x).length := by
      rw [regsUpTo_length]
      have := Fin.le_def.mp h
      omega
    have := s.setRegs_reg_getElem (regsUpTo x) ((List.range (x.val + 1)).map f) (regsUpTo_nodup x)
      (by simp) r.val hl
    rw [regsUpTo_getElem] at this
    simpa using this
  · next h => exact s.setRegs_reg_notMem _ _ fun hm => h (mem_regsUpTo.mp hm)

/-! ### Ending an instruction -/

@[simp] theorem finish_ok (i : Instr) (t : State) : finish i s (.ok t) = .next t := rfl

@[simp] theorem finish_error (i : Instr) (c : FaultCause) :
    finish i s (.error c) = .next (s.raiseIn c i) := rfl

/-- What an instruction that ends through `finish` can have done. -/
theorem finish_cases (i : Instr) (r : Except FaultCause State) {t : State} (h : finish i s r = .next t) :
    r = .ok t ∨ ∃ c, r = .error c ∧ t = s.raiseIn c i := by
  cases r with
  | ok u => exact .inl (by simpa using h)
  | error c => exact .inr ⟨c, rfl, by simpa using h.symm⟩

end Sys2Proof.Machine
end

