-- ==== Sys2Proof/Laws/Display.lean ====
section
/-! SUPPORT. What drawing does, pixel by pixel: a pixel under the sprite is toggled once, every other one stays,
and the flag tells whether a toggled one was lit. -/

namespace Sys2Proof.Machine

/-! ### One pixel -/

theorem Display.pixel_of_le (d : Display) (cx : Nat) {cy : Nat} (h : 32 ≤ cy) :
    Display.pixel d cx cy = false := by
  simp [Display.pixel, Nat.not_lt.mpr h]

theorem Display.pixel_of_lt (d : Display) (cx : Nat) {cy : Nat} (h : cy < 32) :
    Display.pixel d cx cy = d[cy].getLsbD cx := by
  simp [Display.pixel, h]

/-- Displays with the same pixels are equal. -/
theorem Display.ext_pixel {d e : Display}
    (h : ∀ cx cy, cx < 64 → cy < 32 → Display.pixel d cx cy = Display.pixel e cx cy) : d = e := by
  apply Vector.ext
  intro cy hy
  apply BitVec.eq_of_getLsbD_eq
  intro cx hx
  have := h cx cy hx hy
  rwa [Display.pixel_of_lt _ _ hy, Display.pixel_of_lt _ _ hy] at this

theorem Display.pixel_replicate (cx cy : Nat) :
    Display.pixel (Vector.replicate 32 0) cx cy = false := by
  by_cases h : cy < 32
  · rw [Display.pixel_of_lt _ _ h]
    simp
  · exact Display.pixel_of_le _ _ (by omega)

theorem Display.pixel_flip_self (d : Display) {cx cy : Nat} (hx : cx < 64) (hy : cy < 32) :
    Display.pixel (Display.flip d cx cy) cx cy = !Display.pixel d cx cy := by
  simp [Display.pixel, Display.flip, hy, hx]

theorem Display.pixel_flip_ne (d : Display) {cx cy px py : Nat} (h : px ≠ cx ∨ py ≠ cy) :
    Display.pixel (Display.flip d cx cy) px py = Display.pixel d px py := by
  by_cases hy : cy < 32
  · by_cases hp : py < 32
    · rw [Display.pixel_of_lt _ _ hp, Display.pixel_of_lt _ _ hp]
      by_cases e : py = cy
      · subst e
        have : px ≠ cx := by omega
        have hs : (1#64 <<< cx).getLsbD px = false := by
          rw [BitVec.getLsbD_shiftLeft, BitVec.getLsbD_one]
          simp
          omega
        simp [Display.flip, hy, hs]
      · simp [Display.flip, hy, Ne.symm e]
    · rw [Display.pixel_of_le _ _ (by omega), Display.pixel_of_le _ _ (by omega)]
  · rw [Display.flip, dif_neg hy]

/-! ### One row -/

/-- The pixel is under a set bit among the first `k` columns of a sprite row. -/
def rowMask (vx row : Nat) (b : Byte) (k cx cy : Nat) : Prop :=
  ∃ c, c < k ∧ b.getLsbD (7 - c) = true ∧ cx = (vx + c) % 64 ∧ cy = row % 32

/-- The first `k` columns of a sprite row, drawn. -/
def blendCols (vx row : Nat) (b : Byte) (k : Nat) (acc : Blend) : Blend :=
  (List.range k).foldl
    (fun acc c => if b.getLsbD (7 - c) then blendPixel ((vx + c) % 64) (row % 32) acc else acc) acc

theorem blendRow_eq (vx row : Nat) (b : Byte) (acc : Blend) :
    blendRow vx row b acc = blendCols vx row b 8 acc := rfl

theorem blendCols_succ (vx row : Nat) (b : Byte) (k : Nat) (acc : Blend) :
    blendCols vx row b (k + 1) acc
      = if b.getLsbD (7 - k) then blendPixel ((vx + k) % 64) (row % 32) (blendCols vx row b k acc)
        else blendCols vx row b k acc := by
  simp [blendCols, List.range_succ]

theorem rowMask_succ {vx row : Nat} {b : Byte} {k cx cy : Nat} :
    rowMask vx row b (k + 1) cx cy ↔
      rowMask vx row b k cx cy ∨
        (b.getLsbD (7 - k) = true ∧ cx = (vx + k) % 64 ∧ cy = row % 32) := by
  constructor
  · rintro ⟨c, hc, h⟩
    by_cases e : c = k
    · exact .inr (e ▸ h)
    · exact .inl ⟨c, by omega, h⟩
  · rintro (⟨c, hc, h⟩ | h)
    · exact ⟨c, by omega, h⟩
    · exact ⟨k, by omega, h⟩

/-- A column is not drawn twice. -/
theorem not_rowMask_next {vx row : Nat} {b : Byte} {k : Nat} (hk : k < 64) (cy : Nat) :
    ¬ rowMask vx row b k ((vx + k) % 64) cy := by
  rintro ⟨c, hc, -, he, -⟩
  omega

theorem blendCols_pixel (vx row : Nat) (b : Byte) (acc : Blend) (k : Nat) (hk : k ≤ 64) (cx cy : Nat) :
    (rowMask vx row b k cx cy →
      Display.pixel (blendCols vx row b k acc).1 cx cy = !Display.pixel acc.1 cx cy) ∧
    (¬ rowMask vx row b k cx cy →
      Display.pixel (blendCols vx row b k acc).1 cx cy = Display.pixel acc.1 cx cy) := by
  induction k with
  | zero => exact ⟨fun ⟨c, hc, _⟩ => absurd hc (by omega), fun _ => rfl⟩
  | succ k ih =>
    have ih := ih (by omega)
    rw [blendCols_succ, rowMask_succ]
    by_cases hb : b.getLsbD (7 - k) = true
    · rw [if_pos hb]
      by_cases hp : cx = (vx + k) % 64 ∧ cy = row % 32
      · obtain ⟨rfl, rfl⟩ := hp
        have hn := not_rowMask_next (vx := vx) (row := row) (b := b) (k := k) (by omega) (row % 32)
        refine ⟨fun _ => ?_, fun h => absurd (.inr ⟨hb, rfl, rfl⟩) h⟩
        rw [blendPixel, Display.pixel_flip_self _ (Nat.mod_lt _ (by omega)) (Nat.mod_lt _ (by omega)),
          ih.2 hn]
      · have hf : Display.pixel (blendPixel ((vx + k) % 64) (row % 32) (blendCols vx row b k acc)).1 cx cy
            = Display.pixel (blendCols vx row b k acc).1 cx cy :=
          Display.pixel_flip_ne _ (by omega)
        rw [hf]
        exact ⟨fun h => ih.1 (h.resolve_right fun h => hp h.2), fun h => ih.2 fun hm => h (.inl hm)⟩
    · rw [if_neg hb]
      exact ⟨fun h => ih.1 (h.resolve_right fun h => hb h.1), fun h => ih.2 fun hm => h (.inl hm)⟩

theorem blendCols_flag (vx row : Nat) (b : Byte) (acc : Blend) (k : Nat) (hk : k ≤ 64) :
    (blendCols vx row b k acc).2 = true ↔
      acc.2 = true ∨ ∃ cx cy, rowMask vx row b k cx cy ∧ Display.pixel acc.1 cx cy = true := by
  induction k with
  | zero => exact ⟨.inl, fun h => h.resolve_right fun ⟨_, _, ⟨_, hc, _⟩, _⟩ => absurd hc (by omega)⟩
  | succ k ih =>
    have ih := ih (by omega)
    rw [blendCols_succ]
    by_cases hb : b.getLsbD (7 - k) = true
    · have hn := not_rowMask_next (vx := vx) (row := row) (b := b) (k := k) (by omega) (row % 32)
      have hp := (blendCols_pixel vx row b acc k (by omega) _ _).2 hn
      rw [if_pos hb, blendPixel, Bool.or_eq_true, ih, hp]
      constructor
      · rintro ((h | ⟨cx, cy, h, hl⟩) | h)
        · exact .inl h
        · exact .inr ⟨cx, cy, rowMask_succ.mpr (.inl h), hl⟩
        · exact .inr ⟨_, _, rowMask_succ.mpr (.inr ⟨hb, rfl, rfl⟩), h⟩
      · rintro (h | ⟨cx, cy, h, hl⟩)
        · exact .inl (.inl h)
        · rcases rowMask_succ.mp h with h | ⟨-, rfl, rfl⟩
          · exact .inl (.inr ⟨cx, cy, h, hl⟩)
          · exact .inr hl
    · rw [if_neg hb, ih]
      constructor
      · rintro (h | ⟨cx, cy, h, hl⟩)
        · exact .inl h
        · exact .inr ⟨cx, cy, rowMask_succ.mpr (.inl h), hl⟩
      · rintro (h | ⟨cx, cy, h, hl⟩)
        · exact .inl h
        · exact .inr ⟨cx, cy, (rowMask_succ.mp h).resolve_right fun h => hb h.1, hl⟩

/-! ### The whole sprite -/

/-- The pixel is under a set bit of the sprite whose rows are `bs`, the first at `row`. -/
def rowsMask (vx row : Nat) (bs : List Byte) (cx cy : Nat) : Prop :=
  ∃ r, ∃ h : r < bs.length, rowMask vx (row + r) bs[r] 8 cx cy

theorem rowsMask_cons {vx row : Nat} {b : Byte} {bs : List Byte} {cx cy : Nat} :
    rowsMask vx row (b :: bs) cx cy ↔ rowMask vx row b 8 cx cy ∨ rowsMask vx (row + 1) bs cx cy := by
  constructor
  · rintro ⟨r, hr, h⟩
    cases r with
    | zero => exact .inl h
    | succ r => exact .inr ⟨r, by simpa using hr, by simpa [Nat.add_assoc, Nat.add_comm 1] using h⟩
  · rintro (h | ⟨r, hr, h⟩)
    · exact ⟨0, by simp, h⟩
    · exact ⟨r + 1, by simpa using hr, by simpa [Nat.add_assoc, Nat.add_comm 1] using h⟩

/-- No row of the screen holds two rows of one sprite. -/
theorem not_rowsMask_below {vx row : Nat} {b : Byte} {bs : List Byte} {cx cy : Nat} (hl : bs.length < 32)
    (h : rowMask vx row b 8 cx cy) : ¬ rowsMask vx (row + 1) bs cx cy := by
  obtain ⟨_, _, _, _, hy⟩ := h
  rintro ⟨r, hr, _, _, _, _, hy'⟩
  omega

/-- Drawing toggles exactly the pixels under the sprite. -/
theorem blendRows_pixel (vx row : Nat) (bs : List Byte) (acc : Blend) (hl : bs.length ≤ 32) (cx cy : Nat) :
    (rowsMask vx row bs cx cy →
      Display.pixel (blendRows vx row bs acc).1 cx cy = !Display.pixel acc.1 cx cy) ∧
    (¬ rowsMask vx row bs cx cy →
      Display.pixel (blendRows vx row bs acc).1 cx cy = Display.pixel acc.1 cx cy) := by
  induction bs generalizing row acc with
  | nil => exact ⟨fun ⟨r, hr, _⟩ => absurd hr (by simp), fun _ => rfl⟩
  | cons b bs ih =>
    simp only [List.length_cons] at hl
    have ih := ih (row + 1) (blendRow vx row b acc) (by omega)
    have hp := blendCols_pixel vx row b acc 8 (by omega) cx cy
    rw [← blendRow_eq] at hp
    rw [blendRows, rowsMask_cons]
    refine ⟨?_, fun h => ?_⟩
    · rintro (h | h)
      · rw [ih.2 (not_rowsMask_below (by omega) h), hp.1 h]
      · rw [ih.1 h, hp.2 fun hm => not_rowsMask_below (by omega) hm h]
    · rw [ih.2 fun hm => h (.inr hm), hp.2 fun hm => h (.inl hm)]

/-- The flag tells whether a pixel under the sprite was lit before. -/
theorem blendRows_flag (vx row : Nat) (bs : List Byte) (acc : Blend) (hl : bs.length ≤ 32) :
    (blendRows vx row bs acc).2 = true ↔
      acc.2 = true ∨ ∃ cx cy, rowsMask vx row bs cx cy ∧ Display.pixel acc.1 cx cy = true := by
  induction bs generalizing row acc with
  | nil => exact ⟨.inl, fun h => h.resolve_right fun ⟨_, _, ⟨_, hr, _⟩, _⟩ => absurd hr (by simp)⟩
  | cons b bs ih =>
    simp only [List.length_cons] at hl
    have hp := fun cx cy => blendCols_pixel vx row b acc 8 (by omega) cx cy
    rw [blendRows, ih (row + 1) _ (by omega), blendRow_eq, blendCols_flag vx row b acc 8 (by omega)]
    constructor
    · rintro ((h | ⟨cx, cy, h, hl⟩) | ⟨cx, cy, h, hlit⟩)
      · exact .inl h
      · exact .inr ⟨cx, cy, rowsMask_cons.mpr (.inl h), hl⟩
      · have hn : ¬ rowMask vx row b 8 cx cy := fun hm => not_rowsMask_below (by omega) hm h
        rw [(hp cx cy).2 hn] at hlit
        exact .inr ⟨cx, cy, rowsMask_cons.mpr (.inr h), hlit⟩
    · rintro (h | ⟨cx, cy, h, hlit⟩)
      · exact .inl (.inl h)
      · rcases rowsMask_cons.mp h with h | h
        · exact .inl (.inr ⟨cx, cy, h, hlit⟩)
        · have hn : ¬ rowMask vx row b 8 cx cy := fun hm => not_rowsMask_below (by omega) hm h
          exact .inr ⟨cx, cy, h, by rwa [(hp cx cy).2 hn]⟩

/-! ### The state after a draw -/

variable (s : State)

/-- A draw writes the framebuffer and VF and nothing else. -/
theorem State.drawSprite_frame (vx vy : Nat) (bs : List Byte) :
    s.drawSprite vx vy bs
      = { s with v := (s.drawSprite vx vy bs).v, disp := (s.drawSprite vx vy bs).disp } := rfl

theorem State.drawSprite_disp (vx vy : Nat) (bs : List Byte) :
    (s.drawSprite vx vy bs).disp = (blendRows vx vy bs (s.disp, false)).1 := rfl

theorem State.drawSprite_reg (vx vy : Nat) (bs : List Byte) (r : Reg) :
    (s.drawSprite vx vy bs).reg r
      = if r = regVF then flagByte (blendRows vx vy bs (s.disp, false)).2 else s.reg r := by
  simp only [State.drawSprite, State.reg_setReg]
  rfl

end Sys2Proof.Machine
end

