-- ==== Sys2Proof/Laws/Exec.lean ====
section
/-! SUPPORT. For each instruction that can fault or branch in its meaning, what `exec` answers in each case; the
other meanings are one update of the state. -/

namespace Sys2Proof.Machine

variable (s : State)

/-- An instruction that ends through `finish` always answers a next state. -/
theorem finish_next (i : Instr) (r : Except FaultCause State) : ∃ t, finish i s r = .next t := by
  cases r with
  | ok t => exact ⟨t, rfl⟩
  | error c => exact ⟨_, rfl⟩

/-! ### Return and call -/

theorem exec_ret_ok (h : s.sp.val ≠ 0) :
    exec .ret s = .next { s with
      pc := s.stack[s.sp.val - 1], sp := ⟨s.sp.val - 1, by omega⟩ } := by
  show finish _ s _ = _
  rw [State.pop_ok s h]
  rfl

theorem exec_ret_fault (h : s.sp.val = 0) : exec .ret s = .next (s.raiseIn .stackUnderflow .ret) := by
  show finish _ s _ = _
  rw [State.pop_error s h]
  rfl

theorem exec_call_ok (nnn : Word) (h : s.sp.val < 16) :
    exec (.call nnn) s = .next { s with
      pc := nnn, sp := ⟨s.sp.val + 1, by omega⟩, stack := s.stack.set s.sp.val s.pc h } := by
  show finish _ s _ = _
  rw [State.push_ok s h]
  rfl

theorem exec_call_fault (nnn : Word) (h : s.sp.val = 16) :
    exec (.call nnn) s = .next (s.raiseIn .stackOverflow (.call nnn)) := by
  show finish _ s _ = _
  rw [State.push_error s h]
  rfl

/-! ### Draw and the memory instructions -/

theorem exec_drw_ok (x y : Reg) (n : Nat) (h : n = 0 ∨ s.dataAddr + n ≤ 4096) :
    exec (.drw x y n) s = .next (s.drawSprite (s.reg x).toNat (s.reg y).toNat
      ((List.range n).map fun j => s.byteAt (s.dataAddr + j))) := by
  show finish _ s _ = _
  rw [State.loadSpan_ok s h]
  rfl

theorem exec_drw_fault (x y : Reg) (n : Nat) (h0 : n ≠ 0) (h : 4096 < s.dataAddr + n) :
    exec (.drw x y n) s = .next (s.raiseIn (.memoryOutOfBounds s.dataAddr) (.drw x y n)) := by
  show finish _ s _ = _
  rw [State.loadSpan_error s h0 h]
  rfl

theorem exec_ldB_ok (x : Reg) (h : s.dataAddr + 2 < 4096) :
    exec (.ldB x) s = .next (s.store s.dataAddr (decimalDigits (s.reg x))) := by
  show finish _ s _ = _
  rw [State.storeSpan_ok s (.inr (by simp [decimalDigits]; omega))]
  rfl

theorem exec_ldB_fault (x : Reg) (h : 4096 ≤ s.dataAddr + 2) :
    exec (.ldB x) s = .next (s.raiseIn (.memoryOutOfBounds s.dataAddr) (.ldB x)) := by
  show finish _ s _ = _
  rw [State.storeSpan_error s (by simp [decimalDigits]) (by simp [decimalDigits]; omega)]
  rfl

theorem exec_stRegs_ok (x : Reg) (h : s.dataAddr + x.val < 4096) :
    exec (.stRegs x) s = .next (s.store s.dataAddr (s.regValues x)) := by
  show finish _ s _ = _
  rw [State.storeSpan_ok s (.inr (by rw [State.regValues_length]; omega))]
  rfl

theorem exec_stRegs_fault (x : Reg) (h : 4096 ≤ s.dataAddr + x.val) :
    exec (.stRegs x) s = .next (s.raiseIn (.memoryOutOfBounds s.dataAddr) (.stRegs x)) := by
  show finish _ s _ = _
  rw [State.storeSpan_error s (by simp) (by rw [State.regValues_length]; omega)]
  rfl

theorem exec_ldRegs_ok (x : Reg) (h : s.dataAddr + x.val < 4096) :
    exec (.ldRegs x) s = .next (s.setRegs (regsUpTo x)
      ((List.range (x.val + 1)).map fun j => s.byteAt (s.dataAddr + j))) := by
  show finish _ s _ = _
  rw [State.loadSpan_ok s (.inr (by omega))]
  rfl

theorem exec_ldRegs_fault (x : Reg) (h : 4096 ≤ s.dataAddr + x.val) :
    exec (.ldRegs x) s = .next (s.raiseIn (.memoryOutOfBounds s.dataAddr) (.ldRegs x)) := by
  show finish _ s _ = _
  rw [State.loadSpan_error s (by omega) (by omega)]
  rfl

/-! ### Keys -/

theorem exec_skp_ok (x : Reg) (h : (s.reg x).toNat < 16) :
    exec (.skp x) s = .next (s.skipIf s.key[(s.reg x).toNat]) := by
  show finish _ s _ = _
  rw [State.keyLatch_ok s h]
  rfl

theorem exec_skp_fault (x : Reg) (h : 16 ≤ (s.reg x).toNat) :
    exec (.skp x) s = .next (s.raiseIn (.keyIndexOutOfRange (s.reg x)) (.skp x)) := by
  show finish _ s _ = _
  rw [State.keyLatch_error s h]
  rfl

theorem exec_sknp_ok (x : Reg) (h : (s.reg x).toNat < 16) :
    exec (.sknp x) s = .next (s.skipIf (!s.key[(s.reg x).toNat])) := by
  show finish _ s _ = _
  rw [State.keyLatch_ok s h]
  rfl

theorem exec_sknp_fault (x : Reg) (h : 16 ≤ (s.reg x).toNat) :
    exec (.sknp x) s = .next (s.raiseIn (.keyIndexOutOfRange (s.reg x)) (.sknp x)) := by
  show finish _ s _ = _
  rw [State.keyLatch_error s h]
  rfl

theorem exec_ldVxK_some (x : Reg) {k : Key} (h : s.lowestKeyDown = some k) :
    exec (.ldVxK x) s = .next (s.setReg x (BitVec.ofNat 8 k.val)) := by
  show execLdVxK x s = _
  rw [execLdVxK, h]

theorem exec_ldVxK_none (x : Reg) (h : s.lowestKeyDown = none) :
    exec (.ldVxK x) s = .next s.rewind := by
  show execLdVxK x s = _
  rw [execLdVxK, h]

/-! ### Everything that `exec` can do -/

/-- The condition on which an instruction raises a fault, and the cause it raises. -/
def faultsOn (i : Instr) (s : State) (c : FaultCause) : Prop :=
  match i with
  | .ret => s.sp.val = 0 ∧ c = .stackUnderflow
  | .call _ => s.sp.val = 16 ∧ c = .stackOverflow
  | .drw _ _ n => n ≠ 0 ∧ 4096 < s.dataAddr + n ∧ c = .memoryOutOfBounds s.dataAddr
  | .ldB _ => 4096 ≤ s.dataAddr + 2 ∧ c = .memoryOutOfBounds s.dataAddr
  | .stRegs x => 4096 ≤ s.dataAddr + x.val ∧ c = .memoryOutOfBounds s.dataAddr
  | .ldRegs x => 4096 ≤ s.dataAddr + x.val ∧ c = .memoryOutOfBounds s.dataAddr
  | .skp x => 16 ≤ (s.reg x).toNat ∧ c = .keyIndexOutOfRange (s.reg x)
  | .sknp x => 16 ≤ (s.reg x).toNat ∧ c = .keyIndexOutOfRange (s.reg x)
  | _ => False

/-- The state in which an instruction that raises no fault ends. -/
def endsIn (i : Instr) (s t : State) : Prop :=
  match i with
  | .cls => t = { s with disp := Vector.replicate 32 0 }
  | .ret => ∃ h : s.sp.val ≠ 0, t = { s with pc := s.stack[s.sp.val - 1], sp := ⟨s.sp.val - 1, by omega⟩ }
  | .jp nnn => t = s.setPc nnn
  | .call nnn =>
    ∃ h : s.sp.val < 16, t = { s with
      pc := nnn, sp := ⟨s.sp.val + 1, by omega⟩, stack := s.stack.set s.sp.val s.pc h }
  | .seImm x kk => t = s.skipIf (s.reg x == kk)
  | .sneImm x kk => t = s.skipIf (s.reg x != kk)
  | .seReg x y => t = s.skipIf (s.reg x == s.reg y)
  | .sneReg x y => t = s.skipIf (s.reg x != s.reg y)
  | .ldImm x kk => t = s.setReg x kk
  | .addImm x kk => t = s.setReg x (s.reg x + kk)
  | .ldReg x y => t = s.setReg x (s.reg y)
  | .orReg x y => t = s.setReg x (s.reg x ||| s.reg y)
  | .andReg x y => t = s.setReg x (s.reg x &&& s.reg y)
  | .xorReg x y => t = s.setReg x (s.reg x ^^^ s.reg y)
  | .addReg x y =>
    t = s.resultThenFlag x ((wideSum (s.reg x) (s.reg y)).setWidth 8) (carryFlag (s.reg x) (s.reg y))
  | .sub x y => t = s.resultThenFlag x (s.reg x - s.reg y) (noBorrowFlag (s.reg x) (s.reg y))
  | .shr x => t = s.flagThenResult x (s.reg x >>> 1) (shrFlag (s.reg x))
  | .subn x y => t = s.resultThenFlag x (s.reg y - s.reg x) (noBorrowFlag (s.reg y) (s.reg x))
  | .shl x => t = s.flagThenResult x (s.reg x <<< 1) (shlFlag (s.reg x))
  | .ldI nnn => t = { s with i := nnn }
  | .jpV0 nnn => t = s.setPc (zext16 (s.reg 0) + nnn)
  | .rnd x kk => t = s.setReg x (s.inp.rnd &&& kk)
  | .drw x y n =>
    (n = 0 ∨ s.dataAddr + n ≤ 4096) ∧ t = s.drawSprite (s.reg x).toNat (s.reg y).toNat
      ((List.range n).map fun j => s.byteAt (s.dataAddr + j))
  | .skp x => ∃ h : (s.reg x).toNat < 16, t = s.skipIf s.key[(s.reg x).toNat]
  | .sknp x => ∃ h : (s.reg x).toNat < 16, t = s.skipIf (!s.key[(s.reg x).toNat])
  | .ldVxDt x => t = s.setReg x s.dt
  | .ldVxK x =>
    (∃ k, s.lowestKeyDown = some k ∧ t = s.setReg x (BitVec.ofNat 8 k.val)) ∨
    (s.lowestKeyDown = none ∧ t = s.rewind)
  | .ldDtVx x => t = { s with dt := s.reg x }
  | .ldStVx x => t = { s with st := s.reg x }
  | .addI x => t = { s with i := s.i + zext16 (s.reg x) }
  | .ldF x => t = { s with i := zext16 (s.reg x) * 5 }
  | .ldB x => s.dataAddr + 2 < 4096 ∧ t = s.store s.dataAddr (decimalDigits (s.reg x))
  | .stRegs x => s.dataAddr + x.val < 4096 ∧ t = s.store s.dataAddr (s.regValues x)
  | .ldRegs x =>
    s.dataAddr + x.val < 4096 ∧ t = s.setRegs (regsUpTo x)
      ((List.range (x.val + 1)).map fun j => s.byteAt (s.dataAddr + j))

/-- Everything that `exec` can do: a fault, on its condition, or the instruction's own effect. -/
theorem exec_cases {i : Instr} {s t : State} (h : exec i s = .next t) :
    (∃ c, faultsOn i s c ∧ t = s.raiseIn c i) ∨ endsIn i s t := by
  have fin {u : State} (hu : exec i s = .next u) : t = u := by
    rw [hu] at h; exact (Host.Outcome.next.inj h).symm
  cases i
  case ret =>
    by_cases c : s.sp.val = 0
    · exact .inl ⟨_, ⟨c, rfl⟩, fin (exec_ret_fault s c)⟩
    · exact .inr ⟨c, fin (exec_ret_ok s c)⟩
  case call nnn =>
    by_cases c : s.sp.val = 16
    · exact .inl ⟨_, ⟨c, rfl⟩, fin (exec_call_fault s nnn c)⟩
    · exact .inr ⟨by omega, fin (exec_call_ok s nnn _)⟩
  case drw x y n =>
    by_cases c : n = 0 ∨ s.dataAddr + n ≤ 4096
    · exact .inr ⟨c, fin (exec_drw_ok s x y n c)⟩
    · exact .inl ⟨_, ⟨by omega, by omega, rfl⟩, fin (exec_drw_fault s x y n (by omega) (by omega))⟩
  case ldB x =>
    by_cases c : s.dataAddr + 2 < 4096
    · exact .inr ⟨c, fin (exec_ldB_ok s x c)⟩
    · exact .inl ⟨_, ⟨by omega, rfl⟩, fin (exec_ldB_fault s x (by omega))⟩
  case stRegs x =>
    by_cases c : s.dataAddr + x.val < 4096
    · exact .inr ⟨c, fin (exec_stRegs_ok s x c)⟩
    · exact .inl ⟨_, ⟨by omega, rfl⟩, fin (exec_stRegs_fault s x (by omega))⟩
  case ldRegs x =>
    by_cases c : s.dataAddr + x.val < 4096
    · exact .inr ⟨c, fin (exec_ldRegs_ok s x c)⟩
    · exact .inl ⟨_, ⟨by omega, rfl⟩, fin (exec_ldRegs_fault s x (by omega))⟩
  case skp x =>
    by_cases c : (s.reg x).toNat < 16
    · exact .inr ⟨c, fin (exec_skp_ok s x c)⟩
    · exact .inl ⟨_, ⟨by omega, rfl⟩, fin (exec_skp_fault s x (by omega))⟩
  case sknp x =>
    by_cases c : (s.reg x).toNat < 16
    · exact .inr ⟨c, fin (exec_sknp_ok s x c)⟩
    · exact .inl ⟨_, ⟨by omega, rfl⟩, fin (exec_sknp_fault s x (by omega))⟩
  case ldVxK x =>
    cases c : s.lowestKeyDown with
    | none => exact .inr (.inr ⟨c, fin (exec_ldVxK_none s x c)⟩)
    | some k => exact .inr (.inl ⟨k, c, fin (exec_ldVxK_some s x c)⟩)
  all_goals exact .inr (fin rfl)

end Sys2Proof.Machine
end

