-- ==== Sys2Proof/Laws/Events.lean ====
section
/-! SUPPORT. What one event can do: the cases of a TICK, the step in terms of the schedule, and the timers. -/

namespace Sys2Proof.Machine

variable {s : State}

theorem State.halted_eq_false (h : s.fault = none) : s.halted = false := by simp [State.halted, h]

theorem State.halted_eq_true (h : s.fault ≠ none) : s.halted = true := by
  simpa [State.halted, Option.isSome_iff_ne_none] using h

/-- The word at `pc`, high byte first. -/
abbrev State.wordAtPc (s : State) : Word :=
  wordOfBytes (s.byteAt s.pc.toNat) (s.byteAt (s.pc.toNat + 1))

/-- The state in which an instruction executes: the fetch has advanced `pc`, and `rnd` is the TICK's byte. -/
abbrev State.fetched (s : State) (rnd : Byte) : State := { s with pc := s.pc + 2, inp.rnd := rnd }

/-! ### The cases of a TICK (spec/30_encoding.md R75, R76) -/

theorem State.tick_halted (h : s.fault ≠ none) (rnd : Byte) : s.tick rnd = .next s := by
  rw [State.tick, if_pos (State.halted_eq_true h)]

theorem State.tick_fetch_fault (h : s.fault = none) (hp : 4096 ≤ s.pc.toNat + 1) (rnd : Byte) :
    s.tick rnd = .next { s with
      fault := some { cause := .memoryOutOfBounds s.pc.toNat, opcode := none, addr := some s.pc }
      inp.rnd := rnd } := by
  simp only [State.tick, State.halted_eq_false h]
  rw [State.fetch_error _ (by exact hp)]
  rfl

theorem State.tick_decode_fault (h : s.fault = none) (hp : s.pc.toNat + 1 < 4096) (rnd : Byte)
    {e : DecodeError} (hd : decodeWord s.wordAtPc = .error e) :
    s.tick rnd = .next { s with
      pc := s.pc + 2
      fault := some { cause := .invalidOpcode s.wordAtPc, opcode := some s.wordAtPc, addr := some s.pc }
      inp.rnd := rnd } := by
  have hd' : decodeWord ({ s with inp.rnd := rnd } : State).wordAtPc = .error e := hd
  simp only [State.tick, State.halted_eq_false h]
  rw [State.fetch_ok _ (by exact hp)]
  simp only [hd']
  rfl

theorem State.tick_exec (h : s.fault = none) (hp : s.pc.toNat + 1 < 4096) (rnd : Byte) {i : Instr}
    (hd : decodeWord s.wordAtPc = .ok i) : s.tick rnd = exec i (s.fetched rnd) := by
  have hd' : decodeWord ({ s with inp.rnd := rnd } : State).wordAtPc = .ok i := hd
  simp only [State.tick, State.halted_eq_false h]
  rw [State.fetch_ok _ (by exact hp)]
  simp only [hd']
  rfl

/-- Everything a TICK can be: nothing, a fetch fault, a decode fault, or one instruction. -/
theorem State.tick_cases (s : State) (rnd : Byte) :
    (s.fault ≠ none ∧ s.tick rnd = .next s) ∨
    (s.fault = none ∧ 4096 ≤ s.pc.toNat + 1 ∧
      s.tick rnd = .next { s with
        fault := some { cause := .memoryOutOfBounds s.pc.toNat, opcode := none, addr := some s.pc }
        inp.rnd := rnd }) ∨
    (s.fault = none ∧ s.pc.toNat + 1 < 4096 ∧
      s.tick rnd = .next { s with
        pc := s.pc + 2
        fault := some { cause := .invalidOpcode s.wordAtPc, opcode := some s.wordAtPc, addr := some s.pc }
        inp.rnd := rnd }) ∨
    (∃ i, s.fault = none ∧ s.pc.toNat + 1 < 4096 ∧ decodeWord s.wordAtPc = .ok i ∧
      s.tick rnd = exec i (s.fetched rnd)) := by
  by_cases h : s.fault = none
  · by_cases hp : s.pc.toNat + 1 < 4096
    · cases hd : decodeWord s.wordAtPc with
      | error e => exact .inr (.inr (.inl ⟨h, hp, State.tick_decode_fault h hp rnd hd⟩))
      | ok i => exact .inr (.inr (.inr ⟨i, h, hp, rfl, State.tick_exec h hp rnd hd⟩))
    · exact .inr (.inl ⟨h, by omega, State.tick_fetch_fault h (by omega) rnd⟩)
  · exact .inl ⟨h, State.tick_halted h rnd⟩

/-! ### The step in terms of the schedule -/

theorem State.refusesLoad_iff (e : HostEvent) :
    s.refusesLoad e = true ↔ s.fault = none ∧ s.inp.ticked = true ∧ ∃ bytes, e = .load bytes := by
  cases e <;> simp [State.refusesLoad, State.halted, and_comm]

theorem step_of_event {e : HostEvent} {es : List HostEvent} (h : s.inp.events = e :: es)
    (hr : s.refusesLoad e = false) :
    step s = State.raiseEvent e { s with inp.events := es, inp.ticked := tickedAfter e s.inp.ticked } := by
  simp [step, State.takeEvent, h, hr]

theorem step_of_late_load {e : HostEvent} {es : List HostEvent} (h : s.inp.events = e :: es)
    (hr : s.refusesLoad e = true) : step s = .refused .loadAfterTick := by
  simp [step, State.takeEvent, h, hr]

theorem step_of_no_event (h : s.inp.events = []) :
    step s = State.tick (Config.randomByte s.inp.draws)
      { s with inp.draws := s.inp.draws + 1, inp.ticked := true } := by
  simp only [step, State.takeEvent, h]
  rfl

/-- Everything a step can be: a refused LOAD, or one event, raised in a state that differs from `s` in the host's side
only. -/
theorem step_cases (s : State) :
    (step s = .refused .loadAfterTick ∧ s.fault = none ∧ s.inp.ticked = true ∧
      ∃ bytes es, s.inp.events = .load bytes :: es) ∨
    ∃ e inp, step s = State.raiseEvent e { s with inp := inp } := by
  cases h : s.inp.events with
  | nil => exact .inr ⟨.tick _, _, step_of_no_event h⟩
  | cons e es =>
    cases hr : s.refusesLoad e with
    | false => exact .inr ⟨e, _, step_of_event h hr⟩
    | true =>
      obtain ⟨hf, ht, bytes, rfl⟩ := (State.refusesLoad_iff e).mp hr
      exact .inl ⟨step_of_late_load h hr, hf, ht, bytes, es, rfl⟩

/-- A step that answers a next state raised one event. -/
theorem step_event {t : State} (h : step s = .next t) :
    ∃ e inp, State.raiseEvent e { s with inp := inp } = .next t := by
  rcases step_cases s with ⟨hr, -⟩ | ⟨e, inp, he⟩
  · rw [hr] at h
    cases h
  · exact ⟨e, inp, he ▸ h⟩

/-! ### The other events, when the core runs -/

theorem State.tickTimers_running (h : s.fault = none) :
    s.tickTimers = { s with dt := countDown s.dt, st := countDown s.st } := by
  rw [State.tickTimers, if_neg (by simp [State.halted, h])]

theorem State.keypress_running (h : s.fault = none) (k : Key) (pressed : Bool) :
    s.keypress k pressed = { s with key := s.key.set k.val pressed k.isLt } := by
  rw [State.keypress, if_neg (by simp [State.halted, h])]

theorem State.load_fits (h : s.fault = none) {bytes : List Byte} (hl : 0x200 + bytes.length ≤ 4096) :
    s.load bytes = s.store 0x200 bytes := by
  rw [State.load, if_neg (by simp [State.halted, h]), if_neg (by simp [Config.progBase, Config.memSize]; omega)]

theorem State.load_too_long (h : s.fault = none) {bytes : List Byte} (hl : 4096 < 0x200 + bytes.length) :
    s.load bytes = s.raise (.loadOutOfBounds bytes.length) none none := by
  rw [State.load, if_neg (by simp [State.halted, h]), if_pos (by simp [Config.progBase, Config.memSize]; omega)]

theorem countDown_toNat (b : Byte) : (countDown b).toNat = b.toNat - 1 := by
  have := b.isLt
  unfold countDown
  split
  · next h => simp [h]
  · next h =>
    have : b.toNat ≠ 0 := fun e => h (BitVec.eq_of_toNat_eq (by simpa using e))
    rw [BitVec.toNat_sub]
    simp
    omega

end Sys2Proof.Machine
end

