-- ==== Sys2Proof/Laws/PerInstr.lean ====
section
/-! SUPPORT. Statements made of every instruction as syntax, one lemma per constructor.

OpcodeRow: the word of an instruction lies in the instruction's own row of the opcode map (spec/30_encoding.md
R80): under the row's mask it is the row's match value. -/

namespace Sys2Proof

theorem and_F (n : BitVec 4) : n &&& 0xF#4 = n := BitVec.and_allOnes

theorem and_FF (kk : Byte) : kk &&& 0xFF#8 = kk := BitVec.and_allOnes

theorem formatA_and_F000 (op : BitVec 4) (nnn : Word) : formatA op nnn &&& 0xF000 = op ++ 0#12 := by
  show (op ++ nnn.setWidth 12 : BitVec (4 + 12)) &&& (0xF#4 ++ 0#12) = op ++ 0#12
  rw [BitVec.and_append]
  simp [and_F]

theorem formatI_and_F000 (op : BitVec 4) (x : Reg) (kk : Byte) :
    formatI op x kk &&& 0xF000 = op ++ 0#4 ++ 0#8 := by
  show (op ++ nibbleOf x ++ kk : BitVec (4 + 4 + 8)) &&& (0xF#4 ++ 0#4 ++ 0#8) = op ++ 0#4 ++ 0#8
  rw [BitVec.and_append, BitVec.and_append]
  simp [and_F]

theorem formatI_and_F0FF (op : BitVec 4) (x : Reg) (kk : Byte) :
    formatI op x kk &&& 0xF0FF = op ++ 0#4 ++ kk := by
  show (op ++ nibbleOf x ++ kk : BitVec (4 + 4 + 8)) &&& (0xF#4 ++ 0#4 ++ 0xFF#8) = op ++ 0#4 ++ kk
  rw [BitVec.and_append, BitVec.and_append]
  simp [and_F, and_FF]

theorem formatR_and_F000 (op : BitVec 4) (x y : Reg) (n : BitVec 4) :
    formatR op x y n &&& 0xF000 = op ++ 0#4 ++ 0#4 ++ 0#4 := by
  show (op ++ nibbleOf x ++ nibbleOf y ++ n : BitVec (4 + 4 + 4 + 4)) &&& (0xF#4 ++ 0#4 ++ 0#4 ++ 0#4) = op ++ 0#4 ++ 0#4 ++ 0#4
  rw [BitVec.and_append, BitVec.and_append, BitVec.and_append]
  simp [and_F]

theorem formatR_and_F00F (op : BitVec 4) (x y : Reg) (n : BitVec 4) :
    formatR op x y n &&& 0xF00F = op ++ 0#4 ++ 0#4 ++ n := by
  show (op ++ nibbleOf x ++ nibbleOf y ++ n : BitVec (4 + 4 + 4 + 4)) &&& (0xF#4 ++ 0#4 ++ 0#4 ++ 0xF#4) = op ++ 0#4 ++ 0#4 ++ n
  rw [BitVec.and_append, BitVec.and_append, BitVec.and_append]
  simp [and_F]

/-- The instruction's word is in its own row of R80. -/
def Laws.OpcodeRow.Statement (i : Instr) : Prop :=
  i.wellFormed = true → encode i &&& i.opMask = i.opMatch

theorem Laws.OpcodeRow.cls : Laws.OpcodeRow.Statement (.cls) :=
  fun _ => rfl

theorem Laws.OpcodeRow.ret : Laws.OpcodeRow.Statement (.ret) :=
  fun _ => rfl

theorem Laws.OpcodeRow.jp (nnn : Word) : Laws.OpcodeRow.Statement (.jp nnn) :=
  fun _ => formatA_and_F000 ..

theorem Laws.OpcodeRow.call (nnn : Word) : Laws.OpcodeRow.Statement (.call nnn) :=
  fun _ => formatA_and_F000 ..

theorem Laws.OpcodeRow.seImm (x : Reg) (kk : Byte) : Laws.OpcodeRow.Statement (.seImm x kk) :=
  fun _ => formatI_and_F000 ..

theorem Laws.OpcodeRow.sneImm (x : Reg) (kk : Byte) : Laws.OpcodeRow.Statement (.sneImm x kk) :=
  fun _ => formatI_and_F000 ..

theorem Laws.OpcodeRow.seReg (x y : Reg) : Laws.OpcodeRow.Statement (.seReg x y) :=
  fun _ => formatR_and_F00F ..

theorem Laws.OpcodeRow.sneReg (x y : Reg) : Laws.OpcodeRow.Statement (.sneReg x y) :=
  fun _ => formatR_and_F00F ..

theorem Laws.OpcodeRow.ldImm (x : Reg) (kk : Byte) : Laws.OpcodeRow.Statement (.ldImm x kk) :=
  fun _ => formatI_and_F000 ..

theorem Laws.OpcodeRow.addImm (x : Reg) (kk : Byte) : Laws.OpcodeRow.Statement (.addImm x kk) :=
  fun _ => formatI_and_F000 ..

theorem Laws.OpcodeRow.ldReg (x y : Reg) : Laws.OpcodeRow.Statement (.ldReg x y) :=
  fun _ => formatR_and_F00F ..

theorem Laws.OpcodeRow.orReg (x y : Reg) : Laws.OpcodeRow.Statement (.orReg x y) :=
  fun _ => formatR_and_F00F ..

theorem Laws.OpcodeRow.andReg (x y : Reg) : Laws.OpcodeRow.Statement (.andReg x y) :=
  fun _ => formatR_and_F00F ..

theorem Laws.OpcodeRow.xorReg (x y : Reg) : Laws.OpcodeRow.Statement (.xorReg x y) :=
  fun _ => formatR_and_F00F ..

theorem Laws.OpcodeRow.addReg (x y : Reg) : Laws.OpcodeRow.Statement (.addReg x y) :=
  fun _ => formatR_and_F00F ..

theorem Laws.OpcodeRow.sub (x y : Reg) : Laws.OpcodeRow.Statement (.sub x y) :=
  fun _ => formatR_and_F00F ..

theorem Laws.OpcodeRow.shr (x : Reg) : Laws.OpcodeRow.Statement (.shr x) :=
  fun _ => formatR_and_F00F ..

theorem Laws.OpcodeRow.subn (x y : Reg) : Laws.OpcodeRow.Statement (.subn x y) :=
  fun _ => formatR_and_F00F ..

theorem Laws.OpcodeRow.shl (x : Reg) : Laws.OpcodeRow.Statement (.shl x) :=
  fun _ => formatR_and_F00F ..

theorem Laws.OpcodeRow.ldI (nnn : Word) : Laws.OpcodeRow.Statement (.ldI nnn) :=
  fun _ => formatA_and_F000 ..

theorem Laws.OpcodeRow.jpV0 (nnn : Word) : Laws.OpcodeRow.Statement (.jpV0 nnn) :=
  fun _ => formatA_and_F000 ..

theorem Laws.OpcodeRow.rnd (x : Reg) (kk : Byte) : Laws.OpcodeRow.Statement (.rnd x kk) :=
  fun _ => formatI_and_F000 ..

theorem Laws.OpcodeRow.drw (x y : Reg) (n : Nat) : Laws.OpcodeRow.Statement (.drw x y n) :=
  fun _ => formatR_and_F000 ..

theorem Laws.OpcodeRow.skp (x : Reg) : Laws.OpcodeRow.Statement (.skp x) :=
  fun _ => formatI_and_F0FF ..

theorem Laws.OpcodeRow.sknp (x : Reg) : Laws.OpcodeRow.Statement (.sknp x) :=
  fun _ => formatI_and_F0FF ..

theorem Laws.OpcodeRow.ldVxDt (x : Reg) : Laws.OpcodeRow.Statement (.ldVxDt x) :=
  fun _ => formatI_and_F0FF ..

theorem Laws.OpcodeRow.ldVxK (x : Reg) : Laws.OpcodeRow.Statement (.ldVxK x) :=
  fun _ => formatI_and_F0FF ..

theorem Laws.OpcodeRow.ldDtVx (x : Reg) : Laws.OpcodeRow.Statement (.ldDtVx x) :=
  fun _ => formatI_and_F0FF ..

theorem Laws.OpcodeRow.ldStVx (x : Reg) : Laws.OpcodeRow.Statement (.ldStVx x) :=
  fun _ => formatI_and_F0FF ..

theorem Laws.OpcodeRow.addI (x : Reg) : Laws.OpcodeRow.Statement (.addI x) :=
  fun _ => formatI_and_F0FF ..

theorem Laws.OpcodeRow.ldF (x : Reg) : Laws.OpcodeRow.Statement (.ldF x) :=
  fun _ => formatI_and_F0FF ..

theorem Laws.OpcodeRow.ldB (x : Reg) : Laws.OpcodeRow.Statement (.ldB x) :=
  fun _ => formatI_and_F0FF ..

theorem Laws.OpcodeRow.stRegs (x : Reg) : Laws.OpcodeRow.Statement (.stRegs x) :=
  fun _ => formatI_and_F0FF ..

theorem Laws.OpcodeRow.ldRegs (x : Reg) : Laws.OpcodeRow.Statement (.ldRegs x) :=
  fun _ => formatI_and_F0FF ..

end Sys2Proof
end

