-- ==== Sys2Proof/Tests/Slice0.lean ====
section
/-! SUPPORT. The model's own tests.  Every expected result comes from spec/: the encodings of
spec/30_encoding.md R80, and the vectors of spec/95_test_vectors.md, each named in its comment.  The last part
holds one witness, or one per clause, for the hypotheses of each statement. -/

namespace Sys2Proof.Tests

open Sys2Proof.Machine

/-! ### Well-formedness: each check refuses an ill-formed term (R78) -/

theorem test_wellFormed_jp_refuses : (Instr.jp 0x1000).wellFormed = false := by decide
theorem test_wellFormed_call_refuses : (Instr.call 0x1000).wellFormed = false := by decide
theorem test_wellFormed_ldI_refuses : (Instr.ldI 0xFFFF).wellFormed = false := by decide
theorem test_wellFormed_jpV0_refuses : (Instr.jpV0 0x1000).wellFormed = false := by decide
theorem test_wellFormed_drw_refuses : (Instr.drw 0 0 16).wellFormed = false := by decide
theorem test_wellFormed_limits :
    (Instr.jp 0xFFF).wellFormed = true ∧ (Instr.drw 0 0 15).wellFormed = true := by decide

/-! ### Decoding: every constructor, its word written out bit by bit from R80 -/

theorem test_decode_family0 :
    decodeWord 0b0000_0000_1110_0000#16 = .ok .cls ∧
    decodeWord 0b0000_0000_1110_1110#16 = .ok .ret := by decide

theorem test_decode_flow :
    decodeWord 0b0001_1010_1011_1100#16 = .ok (.jp 0xABC) ∧
    decodeWord 0b0010_0011_0100_0101#16 = .ok (.call 0x345) ∧
    decodeWord 0b0011_0011_0100_0010#16 = .ok (.seImm 3 0x42) ∧
    decodeWord 0b0100_0011_0100_0010#16 = .ok (.sneImm 3 0x42) ∧
    decodeWord 0b0101_0001_0010_0000#16 = .ok (.seReg 1 2) ∧
    decodeWord 0b1001_0001_0010_0000#16 = .ok (.sneReg 1 2) ∧
    decodeWord 0b1011_0011_0000_0001#16 = .ok (.jpV0 0x301) := by decide

theorem test_decode_loads :
    decodeWord 0b0110_1010_0111_0111#16 = .ok (.ldImm 0xA 0x77) ∧
    decodeWord 0b0111_1010_1111_1111#16 = .ok (.addImm 0xA 0xFF) ∧
    decodeWord 0b1100_0001_0000_1111#16 = .ok (.rnd 1 0x0F) := by decide

theorem test_decode_family8 :
    decodeWord 0b1000_0001_0010_0000#16 = .ok (.ldReg 1 2) ∧
    decodeWord 0b1000_0001_0010_0001#16 = .ok (.orReg 1 2) ∧
    decodeWord 0b1000_0001_0010_0010#16 = .ok (.andReg 1 2) ∧
    decodeWord 0b1000_0001_0010_0011#16 = .ok (.xorReg 1 2) ∧
    decodeWord 0b1000_0001_0010_0100#16 = .ok (.addReg 1 2) ∧
    decodeWord 0b1000_0001_0010_0101#16 = .ok (.sub 1 2) ∧
    decodeWord 0b1000_0001_1111_0110#16 = .ok (.shr 1) ∧
    decodeWord 0b1000_0001_0010_0111#16 = .ok (.subn 1 2) ∧
    decodeWord 0b1000_0001_1111_1110#16 = .ok (.shl 1) := by decide

theorem test_decode_index_display :
    decodeWord 0b1010_0010_1111_0000#16 = .ok (.ldI 0x2F0) ∧
    decodeWord 0b1101_0011_0100_0101#16 = .ok (.drw 3 4 5) := by decide

theorem test_decode_familyE :
    decodeWord 0b1110_0100_1001_1110#16 = .ok (.skp 4) ∧
    decodeWord 0b1110_0100_1010_0001#16 = .ok (.sknp 4) := by decide

theorem test_decode_familyF :
    decodeWord 0b1111_0101_0000_0111#16 = .ok (.ldVxDt 5) ∧
    decodeWord 0b1111_0101_0000_1010#16 = .ok (.ldVxK 5) ∧
    decodeWord 0b1111_0101_0001_0101#16 = .ok (.ldDtVx 5) ∧
    decodeWord 0b1111_0101_0001_1000#16 = .ok (.ldStVx 5) ∧
    decodeWord 0b1111_0101_0001_1110#16 = .ok (.addI 5) ∧
    decodeWord 0b1111_0101_0010_1001#16 = .ok (.ldF 5) ∧
    decodeWord 0b1111_0101_0011_0011#16 = .ok (.ldB 5) ∧
    decodeWord 0b1111_0101_0101_0101#16 = .ok (.stRegs 5) ∧
    decodeWord 0b1111_0101_0110_0101#16 = .ok (.ldRegs 5) := by decide

/-- T-ENC-4 to T-ENC-9. -/
theorem test_decode_refuses :
    decodeWord 0x5121 = .error (.invalidOpcode 0x5121) ∧ decodeWord 0x8128 = .error (.invalidOpcode 0x8128) ∧
    decodeWord 0x00E1 = .error (.invalidOpcode 0x00E1) ∧ decodeWord 0xE19F = .error (.invalidOpcode 0xE19F) ∧
    decodeWord 0xF100 = .error (.invalidOpcode 0xF100) ∧
    decodeWord 0x912F = .error (.invalidOpcode 0x912F) := by decide

/-- The byte order of R54 and the two bytes of R78. -/
theorem test_decodeBytes :
    decodeBytes [0x6A, 0x77, 0x01] = .ok (.ldImm 0xA 0x77, [0x01]) ∧
    decodeBytes [0x6A] = .error .truncated := by decide

theorem test_decodeTableWord :
    decodeTableWord 16 0x6A77 = some (.ldImm 0xA 0x77) ∧ decodeTableWord 16 0 = none := by decide

/-! ### One step on a small state -/

/-- Registers with the given values, the others 0. -/
def regs (l : List (Reg × Byte)) : Vector Byte 16 :=
  l.foldl (fun v p => v.set p.1.val p.2 p.1.isLt) (Vector.replicate 16 0)

/-- Bytes of memory, everything else as after RESET. -/
def bytes (a : Nat) (l : List Byte) : Memory := Memory.putAll Config.customaryFont [] a l

/-- A display with the given pixels lit. -/
def lit (l : List (Nat × Nat)) : Display :=
  l.foldl (fun d p => Display.flip d p.1 p.2) (Vector.replicate 32 0)

/-- The state in which T-ENC-1 ends: RESET, then a TICK with nothing loaded. -/
def haltedAtReset : State :=
  { State.reset with
    pc := 0x0202, fault := some { cause := .invalidOpcode 0, opcode := some 0, addr := some 0x200 } }

/-- What `f` sees in the state after the step that runs the word `w`. -/
def ran {α : Type} (s : State) (w : Nat) (f : State → α) : Option α :=
  match step (s.withFetchWord 16 w) with
  | .next t => some (f t)
  | .fault _ => none
  | .refused _ => none

/-- The fault record, as the vectors write it: cause, opcode, address. -/
def faultOf (t : State) : Option (FaultCause × Option Word × Option Word) :=
  t.fault.map fun f => (f.cause, f.opcode, f.addr)

/-- T-ENC-2. -/
theorem test_fetch_high_byte_first :
    ran State.reset 0x6A77 (fun t => (t.reg 10, t.pc)) = some (0x77, 0x0202) := by decide

/-- T-ENC-3. -/
theorem test_fetch_odd_pc :
    ran { State.reset with pc := 0x0201 } 0x6A77 (fun t => (t.reg 10, t.pc)) = some (0x77, 0x0203) := by decide

/-- T-ENC-11. -/
theorem test_fetch_last_word :
    ran { State.reset with pc := 0x0FFE } 0x602A (fun t => (t.reg 0, t.pc)) = some (0x2A, 0x1000) := by decide

/-- T-ENC-10. -/
theorem test_fetch_fault :
    (State.tick 0 { State.reset with pc := 0x0FFF }) =
      .next { State.reset with
        pc := 0x0FFF, fault := some { cause := .memoryOutOfBounds 0xFFF, opcode := none, addr := some 0xFFF } } :=
  rfl

/-- T-ENC-4: no skip, `pc` past the word. -/
theorem test_invalid_opcode :
    ran { State.reset with v := regs [(1, 7), (2, 7)] } 0x5121 (fun t => (faultOf t, t.pc)) =
      some (some (.invalidOpcode 0x5121, some 0x5121, some 0x200), 0x0202) := by decide

/-- T-DISP-13. -/
theorem test_cls : ran { State.reset with v := regs [(15, 9)], disp := lit [(2, 1), (63, 31)] } 0x00E0
    (fun t => (t.disp, t.reg 15)) = some (lit [], 9) := by decide

/-- T-FLOW-2. -/
theorem test_ret :
    ran { State.reset with pc := 0x0300, sp := 1, stack := (Vector.replicate 16 0).set 0 0x0202 } 0x00EE
      (fun t => (t.pc, t.sp, t.stack[0])) = some (0x0202, 0, 0x0202) := by decide

/-- T-FLOW-3. -/
theorem test_ret_underflow : ran State.reset 0x00EE (fun t => (faultOf t, t.pc, t.sp)) =
    some (some (.stackUnderflow, some 0x00EE, some 0x200), 0x0202, 0) := by decide

/-- T-FLOW-1. -/
theorem test_jp : ran State.reset 0x1ABC (fun t => (t.pc, t.sp)) = some (0x0ABC, 0) := by decide

/-- T-FLOW-5. -/
theorem test_call_sixteenth : ran { State.reset with sp := 15 } 0x2300
    (fun t => (t.stack[15], t.sp, t.pc)) = some (0x0202, 16, 0x0300) := by decide

/-- T-FLOW-6. -/
theorem test_call_overflow : ran { State.reset with sp := 16 } 0x2300
    (fun t => (faultOf t, t.pc, t.sp, t.stack)) =
      some (some (.stackOverflow, some 0x2300, some 0x200), 0x0202, 16, Vector.replicate 16 0) := by decide

/-- T-FLOW-9, T-FLOW-10. -/
theorem test_seImm :
    ran { State.reset with v := regs [(3, 0x42)] } 0x3342 State.pc = some 0x0204 ∧
    ran { State.reset with v := regs [(3, 0x42)] } 0x3343 State.pc = some 0x0202 := by decide

/-- T-FLOW-18: a skip at the top of memory faults only at the next fetch. -/
theorem test_seImm_top : ran { State.reset with pc := 0x0FFE } 0x3000 (fun t => (t.pc, t.fault)) =
    some (0x1002, none) := by decide

/-- T-FLOW-11, T-FLOW-12. -/
theorem test_sneImm :
    ran { State.reset with v := regs [(3, 0x42)] } 0x4300 State.pc = some 0x0204 ∧
    ran { State.reset with v := regs [(3, 0x42)] } 0x4342 State.pc = some 0x0202 := by decide

/-- T-FLOW-13, T-FLOW-14. -/
theorem test_seReg :
    ran { State.reset with v := regs [(1, 7), (2, 7)] } 0x5120 State.pc = some 0x0204 ∧
    ran { State.reset with v := regs [(1, 7), (2, 8)] } 0x5120 State.pc = some 0x0202 := by decide

/-- T-FLOW-15, T-FLOW-16. -/
theorem test_sneReg :
    ran { State.reset with v := regs [(1, 7), (2, 8)] } 0x9120 State.pc = some 0x0204 ∧
    ran { State.reset with v := regs [(1, 7), (2, 7)] } 0x9120 State.pc = some 0x0202 := by decide

/-- T-FLOW-20: not reduced to 12 bits. -/
theorem test_jpV0 : ran { State.reset with v := regs [(0, 0xFF)] } 0xBFFF State.pc = some 0x10FE := by decide

/-- T-ALU-2. -/
theorem test_ldImm : ran { State.reset with v := regs [(15, 0x33)] } 0x6F00 (State.reg · 15) = some 0 := by
  decide

/-- T-ALU-3. -/
theorem test_addImm : ran { State.reset with v := regs [(10, 0x01), (15, 0x55)] } 0x7AFF
    (fun t => (t.reg 10, t.reg 15)) = some (0x00, 0x55) := by decide

/-- T-ALU-5. -/
theorem test_ldReg : ran { State.reset with v := regs [(1, 0x01), (2, 0xAB)] } 0x8120
    (fun t => (t.reg 1, t.reg 2)) = some (0xAB, 0xAB) := by decide

/-- T-ALU-6. -/
theorem test_orReg : ran { State.reset with v := regs [(1, 0xF0), (2, 0x0F), (15, 0x55)] } 0x8121
    (fun t => (t.reg 1, t.reg 15)) = some (0xFF, 0x55) := by decide

/-- T-ALU-7. -/
theorem test_andReg : ran { State.reset with v := regs [(1, 0xF0), (2, 0x3C), (15, 0x55)] } 0x8122
    (fun t => (t.reg 1, t.reg 15)) = some (0x30, 0x55) := by decide

/-- T-ALU-8. -/
theorem test_xorReg : ran { State.reset with v := regs [(1, 0xF0), (2, 0x3C), (15, 0x55)] } 0x8123
    (fun t => (t.reg 1, t.reg 15)) = some (0xCC, 0x55) := by decide

/-- T-ALU-11, and T-ALU-14 with VF as the operand. -/
theorem test_addReg :
    ran { State.reset with v := regs [(1, 0xFF), (2, 0x01)] } 0x8124 (fun t => (t.reg 1, t.reg 15)) =
      some (0x00, 1) ∧
    ran { State.reset with v := regs [(1, 0x05), (15, 0x03)] } 0x81F4 (fun t => (t.reg 1, t.reg 15)) =
      some (0x08, 0) := by decide

/-- T-ALU-15: with x = F the flag wins. -/
theorem test_addReg_xF : ran { State.reset with v := regs [(15, 0xF0), (2, 0x20)] } 0x8F24 (State.reg · 15) =
    some 1 := by decide

/-- T-ALU-17, T-ALU-18. -/
theorem test_sub :
    ran { State.reset with v := regs [(1, 0x01), (2, 0x02)] } 0x8125 (fun t => (t.reg 1, t.reg 15)) =
      some (0xFF, 0) ∧
    ran { State.reset with v := regs [(1, 0x05), (2, 0x05)] } 0x8125 (fun t => (t.reg 1, t.reg 15)) =
      some (0x00, 1) := by decide

/-- T-ALU-20: with x = F the flag wins. -/
theorem test_sub_xF : ran { State.reset with v := regs [(15, 0x09), (2, 0x04)] } 0x8F25 (State.reg · 15) =
    some 1 := by decide

/-- T-ALU-23, and T-ALU-22 with an odd value. -/
theorem test_shr :
    ran { State.reset with v := regs [(1, 0xFE), (2, 0x33)] } 0x8126
      (fun t => (t.reg 1, t.reg 2, t.reg 15)) = some (0x7F, 0x33, 0) ∧
    ran { State.reset with v := regs [(1, 0x05)] } 0x8106 (fun t => (t.reg 1, t.reg 15)) = some (0x02, 1) := by
  decide

/-- T-ALU-24: with x = F the result wins. -/
theorem test_shr_xF : ran { State.reset with v := regs [(15, 0x07)] } 0x8F06 (State.reg · 15) = some 3 := by
  decide

/-- T-ALU-26, T-ALU-27. -/
theorem test_subn :
    ran { State.reset with v := regs [(1, 0x01), (2, 0x02)] } 0x8127 (fun t => (t.reg 1, t.reg 15)) =
      some (0x01, 1) ∧
    ran { State.reset with v := regs [(1, 0x02), (2, 0x01)] } 0x8127 (fun t => (t.reg 1, t.reg 15)) =
      some (0xFF, 0) := by decide

/-- T-ALU-29, T-ALU-30: with x = F the flag wins. -/
theorem test_subn_xF :
    ran { State.reset with v := regs [(15, 0x03), (2, 0x05)] } 0x8F27 (State.reg · 15) = some 1 ∧
    ran { State.reset with v := regs [(15, 0x05), (2, 0x03)] } 0x8F27 (State.reg · 15) = some 0 := by decide

/-- T-ALU-31, T-ALU-32. -/
theorem test_shl :
    ran { State.reset with v := regs [(1, 0x81)] } 0x810E (fun t => (t.reg 1, t.reg 15)) = some (0x02, 1) ∧
    ran { State.reset with v := regs [(1, 0x40)] } 0x810E (fun t => (t.reg 1, t.reg 15)) = some (0x80, 0) := by
  decide

/-- T-ALU-33: with x = F the result wins. -/
theorem test_shl_xF : ran { State.reset with v := regs [(15, 0x81)] } 0x8F0E (State.reg · 15) = some 2 := by
  decide

/-- T-ALU-35. -/
theorem test_rnd : ran { State.reset with inp.events := [.tick 0xA7] } 0xC10F (State.reg · 1) = some 7 := by
  decide

/-- T-MEM-1. -/
theorem test_ldI : ran State.reset 0xA2F0 State.i = some 0x02F0 := by decide

/-- T-MEM-3, T-MEM-4: no flag. -/
theorem test_addI :
    ran { State.reset with i := 0x0FFE, v := regs [(2, 0x05), (15, 0x33)] } 0xF21E
      (fun t => (t.i, t.reg 15)) = some (0x1003, 0x33) ∧
    ran { State.reset with i := 0xFFFF, v := regs [(2, 0x01)] } 0xF21E (fun t => (t.i, t.reg 15)) =
      some (0x0000, 0) := by decide

/-- T-MEM-5, T-MEM-6: no nibble mask. -/
theorem test_ldF :
    ran { State.reset with v := regs [(3, 0x0A)] } 0xF329 State.i = some 0x0032 ∧
    ran { State.reset with v := regs [(3, 0xFF)] } 0xF329 State.i = some 0x04FB := by decide

/-- T-MEM-7. -/
theorem test_ldB : ran { State.reset with i := 0x0300, v := regs [(0, 156)] } 0xF033
    (fun t => (t.byteAt 0x300, t.byteAt 0x301, t.byteAt 0x302, t.i)) = some (1, 5, 6, 0x0300) := by decide

/-- T-MEM-10: nothing is written. -/
theorem test_ldB_fault : ran { State.reset with i := 0x0FFE, v := regs [(0, 100)] } 0xF033
    (fun t => (faultOf t, t.byteAt 0xFFE, t.byteAt 0xFFF)) =
      some (some (.memoryOutOfBounds 0xFFE, some 0xF033, some 0x200), 0, 0) := by decide

/-- T-MEM-11. -/
theorem test_stRegs :
    ran { State.reset with i := 0x0300, v := regs [(0, 0x11), (1, 0x22), (2, 0x33), (3, 0x44), (4, 0x55)] }
      0xF355 (fun t => ((List.range 5).map fun j => t.byteAt (0x300 + j), t.i)) =
        some ([0x11, 0x22, 0x33, 0x44, 0x00], 0x0300) := by decide

/-- T-MEM-19: the font is not protected. -/
theorem test_stRegs_font : ran { State.reset with v := regs [(0, 0xAA)] } 0xF055 (State.byteAt · 0) =
    some 0xAA := by decide

/-- T-MEM-15. -/
theorem test_ldRegs :
    ran { State.reset with
      i := 0x0300, v := regs [(4, 0x99)], mem := bytes 0x300 [0x11, 0x22, 0x33, 0x44, 0x55] }
      0xF365 (fun t => ([0, 1, 2, 3, 4].map t.reg, t.i)) =
        some ([0x11, 0x22, 0x33, 0x44, 0x99], 0x0300) := by decide

/-- T-MEM-17. -/
theorem test_ldRegs_fault : ran { State.reset with i := 0x1000, v := regs [(0, 0x07)] } 0xF065
    (fun t => (faultOf t, t.reg 0)) =
      some (some (.memoryOutOfBounds 0x1000, some 0xF065, some 0x200), 0x07) := by decide

/-- T-DISP-4: the row does not change when the column wraps. -/
theorem test_drw_wraps :
    ran { State.reset with i := 0x0300, mem := bytes 0x300 [0xFF], v := regs [(0, 63), (1, 31)] } 0xD011
      (fun t => (t.disp, t.reg 15)) =
        some (lit [(63, 31), (0, 31), (1, 31), (2, 31), (3, 31), (4, 31), (5, 31), (6, 31)], 0) := by decide

/-- T-DISP-11: a collision. -/
theorem test_drw_collides :
    ran { State.reset with
      i := 0x0300, mem := bytes 0x300 [0xC0], v := regs [(0, 1), (1, 1)], disp := lit [(2, 1), (9, 9)] }
      0xD011 (fun t => (t.disp, t.reg 15)) = some (lit [(1, 1), (9, 9)], 1) := by decide

/-- T-KEY-1, T-KEY-2. -/
theorem test_skp :
    ran { State.reset with v := regs [(4, 7)], key := (Vector.replicate 16 false).set 7 true } 0xE49E State.pc =
      some 0x0204 ∧
    ran { State.reset with v := regs [(4, 7)] } 0xE49E State.pc = some 0x0202 := by decide

/-- T-KEY-5. -/
theorem test_skp_fault : ran { State.reset with v := regs [(4, 16)] } 0xE49E (fun t => (faultOf t, t.pc)) =
    some (some (.keyIndexOutOfRange 16, some 0xE49E, some 0x200), 0x0202) := by decide

/-- T-KEY-3, T-KEY-4. -/
theorem test_sknp :
    ran { State.reset with v := regs [(4, 7)] } 0xE4A1 State.pc = some 0x0204 ∧
    ran { State.reset with v := regs [(4, 7)], key := (Vector.replicate 16 false).set 7 true } 0xE4A1 State.pc =
      some 0x0202 := by decide

/-- T-TMR-1. -/
theorem test_ldVxDt : ran { State.reset with dt := 0x2A } 0xF507 (fun t => (t.reg 5, t.dt)) =
    some (0x2A, 0x2A) := by decide

/-- T-KEY-6: the wait. -/
theorem test_ldVxK_waits : ran { State.reset with v := regs [(3, 0x77)] } 0xF30A
    (fun t => (t.pc, t.reg 3)) = some (0x0200, 0x77) := by decide

/-- T-KEY-7: the lowest of two keys. -/
theorem test_ldVxK_takes :
    ran { State.reset with key := ((Vector.replicate 16 false).set 9 true).set 4 true } 0xF30A
      (fun t => (t.reg 3, t.pc)) = some (0x04, 0x0202) := by decide

/-- T-TMR-2. -/
theorem test_ldDtVx : ran { State.reset with v := regs [(5, 0x3C)] } 0xF515 (fun t => (t.dt, t.st)) =
    some (0x3C, 0) := by decide

/-- T-TMR-3. -/
theorem test_ldStVx : ran { State.reset with v := regs [(5, 0x02)] } 0xF518 (fun t => (t.dt, t.st)) =
    some (0, 0x02) := by decide

/-! ### Events -/

/-- T-TMR-4, its first event. -/
theorem test_tickTimers :
    (State.tickTimers { State.reset with dt := 2, st := 1 }) = { State.reset with dt := 1, st := 0 } ∧
    (State.toneEdge { State.reset with dt := 2, st := 1 }) = true := ⟨rfl, rfl⟩

/-- T-RST-4: nothing is copied. -/
theorem test_load_too_long :
    faultOf (State.load (List.replicate 3585 0xAB) State.reset) = some (.loadOutOfBounds 3585, none, none) := by
  rw [State.load, if_neg (by decide), if_pos (by rw [List.length_replicate]; decide)]
  rw [List.length_replicate]
  rfl

/-- T-RST-6: a second load overlays the first. -/
theorem test_load_twice :
    ((State.reset.load [0x12, 0x00]).load [0xAA]).byteAt 0x200 = 0xAA ∧
    ((State.reset.load [0x12, 0x00]).load [0xAA]).byteAt 0x201 = 0x00 := by decide

/-- T-RST-7: a halted core ignores the host. -/
theorem test_halted :
    ran { State.reset with dt := 5 } 0x0000 (fun t =>
      (t.tickTimers.dt, (t.keypress 3 true).key[3], (t.load [0x12, 0x00]).byteAt 0x200)) =
        some (5, false, 0) := by decide

/-- U11 and R227: a LOAD after a TICK is refused, one before it is performed, and a RESET allows it again. -/
theorem test_late_load :
    step { State.reset with inp.events := [.load [1]], inp.ticked := true } = .refused .loadAfterTick ∧
    step { State.reset with inp.events := [.load [1]] } =
      .next { State.reset with mem := [(0x200, 1)] } ∧
    tickedAfter .reset true = false := ⟨rfl, rfl, rfl⟩

/-- The code numbers of R186. -/
theorem test_fault_codes :
    [FaultCause.invalidOpcode 0, .memoryOutOfBounds 0xFFF, .stackOverflow, .stackUnderflow,
      .keyIndexOutOfRange 16, .loadOutOfBounds 3585].map FaultCause.code = [1, 2, 3, 4, 5, 6] := by decide

/-- What the host is told at the fault of T-ENC-1 (R191), and that a halted core reports nothing more. -/
theorem test_fault_report :
    hostOutput (.tick 0) State.reset haltedAtReset =
      .report { cause := .invalidOpcode 0, opcode := some 0, addr := some 0x200 } ∧
    hostOutput (.tick 0) haltedAtReset haltedAtReset = .silent := by decide

/-- T-RST-1, on the elements that a wrong reset would miss. -/
theorem test_reset :
    State.reset.pc = 0x0200 ∧ State.reset.byteAt 0 = 0xF0 ∧ State.reset.byteAt 0x4F = 0x80 ∧
    State.reset.byteAt 0x50 = 0 ∧ State.reset.byteAt 0x200 = 0 ∧ State.reset.fault = none := by decide

/-! ### Witnesses: for each statement with hypotheses, concrete values that meet them, clause by clause -/

/-- A halted state. -/
def haltedState : State :=
  { State.reset with fault := some { cause := .stackUnderflow, opcode := some 0x00EE, addr := some 0x200 } }

/-- A running state with the word 0x602A in the last two bytes of memory and `pc` there. -/
def atTop : State := { State.reset with pc := 0x0FFE, mem := bytes 0xFFE [0x60, 0x2A] }

/-- A running state in which no instruction of `everyInstr` faults and each one that writes changes something. -/
def busy : State :=
  { State.reset with
    v := regs [(0, 1), (1, 2), (2, 7), (15, 9)], pc := 0x0202, i := 0x0300, sp := 1
    stack := (Vector.replicate 16 0).set 0 0x0456, dt := 0x2A, st := 0x2B
    key := (Vector.replicate 16 false).set 7 true
    disp := lit [(2, 7)], mem := bytes 0x300 [0x80, 0x11], inp.rnd := 0xA7 }

def flowInstrs : List Instr :=
  [.cls, .ret, .jp 0xABC, .call 0x345, .seImm 2 7, .sneImm 2 7, .seReg 1 2, .sneReg 1 2, .jpV0 0x300, .skp 2, .sknp 2]

def aluInstrs : List Instr :=
  [.ldImm 1 0x77, .addImm 1 1, .ldReg 1 2, .orReg 1 2, .andReg 2 1, .xorReg 1 2, .addReg 1 2, .sub 1 2, .shr 1,
   .subn 1 2, .shl 1, .rnd 1 0xFF]

def otherInstrs : List Instr :=
  [.ldI 0x2F0, .drw 1 2 1, .ldVxDt 1, .ldVxK 1, .ldDtVx 1, .ldStVx 1, .addI 1, .ldF 1, .ldB 1, .stRegs 2, .ldRegs 0]

/-- One instance of every instruction. -/
def everyInstr : List Instr :=
  flowInstrs.append (aluInstrs.append otherInstrs)

/-- What `f` sees after `i` is executed. -/
def after {α : Type} (i : Instr) (s : State) (f : State → α) : Option α :=
  match exec i s with
  | .next t => some (f t)
  | .fault _ => none
  | .refused _ => none

theorem witness_DecodeOfEncodeIsTheInstruction :
    (Instr.drw 15 15 15).wellFormed = true ∧ (Instr.jp 0xFFF).wellFormed = true := by decide

theorem witness_EncodeOfDecodeIsTheCanonicalWord :
    decodeWord 0x6FFF = .ok (.ldImm 15 0xFF) ∧
    (∀ x, Instr.ldImm 15 0xFF ≠ .shr x ∧ Instr.ldImm 15 0xFF ≠ .shl x) ∧
    decodeWord 0x8FF6 = .ok (.shr 15) ∧ decodeWord 0x8FFE = .ok (.shl 15) := by
  refine ⟨by decide, fun x => ⟨by simp, by simp⟩, by decide, by decide⟩

theorem witness_OnlyTheShiftsIgnoreAField :
    (0x81F6 : Word) &&& 0xF00F = 0x8006 ∧ (0x81F6 : Word) &&& 0xFF0F = 0x8106 &&& 0xFF0F ∧
    (0x81FE : Word) &&& 0xF00F = 0x800E ∧ (0x81FE : Word) &&& 0xFF0F = 0x810E &&& 0xFF0F ∧
    decodeWord 0x81F6 = .ok (.shr 1) ∧ decodeWord 0x8106 = .ok (.shr 1) ∧
    decodeWord 0x6A77 = .ok (.ldImm 0xA 0x77) := by decide

theorem witness_WordSelectsItsRowOfTheOpcodeMap :
    decodeWord 0xFF65 = .ok (.ldRegs 15) ∧ (0xF0FF, 0xF065) ∈ opcodeMap ∧
    (0xFF65 : Word) &&& 0xF0FF = 0xF065 := by decide

/-- The first and the last invalid word of each class of R86. -/
theorem witness_InvalidWordsAreTheSixClasses :
    [0x0000, 0x0FFF, 0x5001, 0x5FFF, 0x8008, 0x8FFF, 0x9001, 0x9FFF, 0xE000, 0xEFFF, 0xF000, 0xFFFF].all
      (fun w => decodeWord w = .error (.invalidOpcode w)) = true := by decide

theorem witness_StepRunsTheDecodedInstruction :
    atTop.fault = none ∧ atTop.pc.toNat + 1 < 4096 ∧
    decodeWord (wordOfBytes (atTop.byteAt atTop.pc.toNat) (atTop.byteAt (atTop.pc.toNat + 1))) =
      .ok (.ldImm 0 0x2A) ∧ atTop.inp.events = [] ∧
    ({ atTop with inp.events := [.tick 7] } : State).inp.events = .tick 7 :: [] := by decide

theorem witness_TickFetchesDecodesAndExecutes :
    haltedState.fault ≠ none ∧
    (({ atTop with pc := 0x0FFF } : State).fault = none ∧
      4096 ≤ ({ atTop with pc := 0x0FFF } : State).pc.toNat + 1) ∧
    ((0x602A : Word).toNat = (atTop.byteAt 0xFFE).toNat * 256 + (atTop.byteAt 0xFFF).toNat ∧
      decodeWord 0x602A = .ok (.ldImm 0 0x2A)) ∧
    ((0 : Word).toNat = (State.reset.byteAt 0x200).toNat * 256 + (State.reset.byteAt 0x201).toNat ∧
      decodeWord 0 = .error (.invalidOpcode 0)) := by decide

theorem witness_StepsAnswerNextButForALateLoad_refused :
    ({ busy with inp.ticked := true, inp.events := [.load [1]] } : State).fault = none ∧
    ({ busy with inp.ticked := true, inp.events := [.load [1]] } : State).inp.ticked = true ∧
    ({ busy with inp.ticked := true, inp.events := [.load [1]] } : State).inp.events = .load [1] :: [] ∧
    (∀ rnd, HostEvent.load [1] ≠ .tick rnd) ∧ HostEvent.load [1] ≠ .reset :=
  ⟨rfl, rfl, rfl, by simp, by simp⟩

/-- Each part of the condition alone is missing: a halted core, no TICK yet, another event. -/
theorem witness_StepsAnswerNextButForALateLoad_performed :
    (haltedState.fault ≠ none ∧ busy.inp.ticked = false) ∧
    ({ busy with inp.ticked := true, inp.events := [.reset] } : State).inp.events = .reset :: [] := by decide

theorem witness_HaltedCoreIgnoresEveryEventButReset :
    haltedState.fault ≠ none ∧ HostEvent.tickTimers ≠ .reset ∧ HostEvent.getDisplay ≠ .reset := by decide

theorem witness_FaultsLeaveNoPartialEffect_fetch :
    ∃ t f, State.raiseEvent (.tick 0) { atTop with pc := 0x0FFF } = .next t ∧ t.fault = some f ∧
      4096 ≤ ({ atTop with pc := 0x0FFF } : State).pc.toNat + 1 := ⟨_, _, rfl, rfl, by decide⟩

theorem witness_FaultsLeaveNoPartialEffect_execute :
    ∃ t f, State.raiseEvent (.tick 0) State.reset = .next t ∧ t.fault = some f ∧
      State.reset.pc.toNat + 1 < 4096 ∧ State.reset.fault = none := ⟨_, _, rfl, rfl, by decide, rfl⟩

/-- No fault, and an event of a halted core. -/
theorem witness_FaultsLeaveNoPartialEffect_silent :
    (∃ t, State.raiseEvent (.tick 0) atTop = .next t ∧ t.fault = none) ∧
    ∃ t, State.raiseEvent (.load [1]) haltedState = .next t ∧ haltedState.fault ≠ none :=
  ⟨⟨_, rfl, rfl⟩, _, rfl, by decide⟩

theorem witness_FaultsLeaveNoPartialEffect_load :
    ∃ t f, State.raiseEvent (.load (List.replicate 3585 0)) State.reset = .next t ∧ t.fault = some f := by
  refine ⟨_, { cause := .loadOutOfBounds 3585, opcode := none, addr := none }, rfl, ?_⟩
  rw [State.load, if_neg (by decide), if_pos (by rw [List.length_replicate]; decide), List.length_replicate]
  rfl

/-- The last value without a fault and the first one with it, for each of the eight. -/
theorem witness_InstructionsFaultExactlyOnTheirConditions :
    [after .ret { busy with sp := 1 } faultOf, after (.call 0) { busy with sp := 15 } faultOf,
      after (.drw 0 0 1) { busy with i := 0xFFF } faultOf, after (.drw 0 0 0) { busy with i := 0xFFFF } faultOf,
      after (.ldB 0) { busy with i := 0xFFD } faultOf, after (.stRegs 15) { busy with i := 0xFF0 } faultOf,
      after (.ldRegs 15) { busy with i := 0xFF0 } faultOf,
      after (.skp 1) { busy with v := regs [(1, 15)] } faultOf,
      after (.sknp 1) { busy with v := regs [(1, 15)] } faultOf].all (· == some none) = true ∧
    ([after .ret { busy with sp := 0 } faultOf, after (.call 0) { busy with sp := 16 } faultOf,
      after (.drw 0 0 1) { busy with i := 0x1000 } faultOf, after (.drw 0 0 2) { busy with i := 0xFFF } faultOf,
      after (.ldB 0) { busy with i := 0xFFE } faultOf, after (.stRegs 15) { busy with i := 0xFF1 } faultOf,
      after (.ldRegs 15) { busy with i := 0xFF1 } faultOf,
      after (.skp 1) { busy with v := regs [(1, 16)] } faultOf,
      after (.sknp 1) { busy with v := regs [(1, 16)] } faultOf].map fun o => o.map fun f => f.map (·.1)) =
      [some (some .stackUnderflow), some (some .stackOverflow), some (some (.memoryOutOfBounds 0x1000)),
        some (some (.memoryOutOfBounds 0xFFF)), some (some (.memoryOutOfBounds 0xFFE)),
        some (some (.memoryOutOfBounds 0xFF1)), some (some (.memoryOutOfBounds 0xFF1)),
        some (some (.keyIndexOutOfRange 16)), some (some (.keyIndexOutOfRange 16))] := by decide

/-- The instructions of `everyInstr` that change a register of `busy` are the sixteen that may. -/
theorem witness_RegistersAreWrittenOnlyAsListed :
    everyInstr.filter (fun i => after i busy (fun t => decide (t.v ≠ busy.v)) = some true) =
      aluInstrs.append [.drw 1 2 1, .ldVxDt 1, .ldVxK 1, .ldRegs 0] := by decide

/-- Every instruction runs from `busy` without a fault. -/
theorem witness_PcAfterEachInstruction :
    busy.fault = none ∧ everyInstr.length = 34 ∧
    everyInstr.all (fun i => after i busy (fun t => decide (t.fault = none)) = some true) = true := by decide

/-- Both sides of every condition of `PcAfterEachInstruction`. -/
theorem witness_PcAfterEachInstruction_branches :
    [after (.seImm 2 7) busy State.pc, after (.seImm 2 8) busy State.pc, after (.sneImm 2 8) busy State.pc,
      after (.sneImm 2 7) busy State.pc, after (.seReg 2 2) busy State.pc, after (.seReg 1 2) busy State.pc,
      after (.sneReg 1 2) busy State.pc, after (.sneReg 2 2) busy State.pc, after (.skp 2) busy State.pc,
      after (.skp 1) busy State.pc, after (.sknp 1) busy State.pc, after (.sknp 2) busy State.pc] =
      [some 0x204, some 0x202, some 0x204, some 0x202, some 0x204, some 0x202, some 0x204, some 0x202,
        some 0x204, some 0x202, some 0x204, some 0x202] ∧
    after (.ldVxK 0) { busy with key := Vector.replicate 16 false } State.pc = some 0x200 ∧
    after (.jpV0 0xFFF) { busy with v := regs [(0, 0xFF)] } State.pc = some 0x10FE := by decide

theorem witness_IndexAndStackAreWrittenOnlyAsListed :
    everyInstr.filter (fun i => after i busy (fun t => decide (t.i ≠ busy.i)) = some true) =
      [.ldI 0x2F0, .addI 1, .ldF 1] ∧
    everyInstr.filter (fun i => after i busy (fun t =>
      decide (t.sp ≠ busy.sp ∨ t.stack ≠ busy.stack)) = some true) = [.ret, .call 0x345] := by decide

theorem witness_TimersAndKeysAreWrittenOnlyAsListed :
    everyInstr.filter (fun i => after i busy (fun t =>
      decide (t.dt ≠ busy.dt ∨ t.st ≠ busy.st)) = some true) = [.ldDtVx 1, .ldStVx 1] ∧
    busy.tickTimers.dt ≠ busy.dt ∧ (busy.keypress 7 false).key ≠ busy.key ∧ busy.toReset.key ≠ busy.key := by
  decide

theorem witness_DisplayAndMemoryAreWrittenOnlyAsListed :
    everyInstr.filter (fun i => after i busy (fun t => decide (t.disp ≠ busy.disp)) = some true) =
      [.cls, .drw 1 2 1] ∧
    everyInstr.filter (fun i => after i busy (fun t => decide (t.mem ≠ busy.mem)) = some true) =
      [.ldB 1, .stRegs 2] ∧
    (busy.load [1]).mem ≠ busy.mem ∧ busy.toReset.mem ≠ busy.mem ∧ busy.toReset.disp ≠ busy.disp := by decide

theorem witness_StepKeepsMemoryCanonical : busy.memoryCanonical ∧ ∃ t, step busy = .next t :=
  ⟨by unfold State.memoryCanonical; decide, _, rfl⟩

theorem witness_StepKeepsPcBounded :
    ({ busy with pc := 0x10FE, stack := (Vector.replicate 16 0).set 0 0x1000 } : State).pcBounded ∧
    ∃ t, step busy = .next t :=
  ⟨by unfold State.pcBounded; decide, _, rfl⟩

theorem witness_FontIsConstant : ∃ t, step busy = .next t := ⟨_, rfl⟩

theorem witness_MemReadIsBigEndianAndRangeChecked :
    1 ≤ 2 ∧ 4096 ≤ 4095 + 2 - 1 ∧ 4094 + 2 - 1 < 4096 ∧ atTop.memRead 0xFFE 2 = .ok 0x602A := by
  refine ⟨by decide, by decide, by decide, rfl⟩

theorem witness_MemWriteStoresMostSignificantByteFirst :
    1 ≤ 2 ∧ 4096 ≤ 4095 + 2 - 1 ∧ 4094 + 2 - 1 < 4096 ∧
    ∃ t, busy.memWrite 0xFFE 2 0x602A = .ok t ∧ t.byteAt 0xFFE = 0x60 ∧ t.byteAt 0xFFF = 0x2A := by
  refine ⟨by decide, by decide, by decide, _, rfl, by decide, by decide⟩

theorem witness_StoredBytesAreFetchedAtOnce :
    ({ busy with i := 0xFF0 } : State).dataAddr + (15 : Reg).val < 4096 ∧
    (15 : Reg).val = (14 : Reg).val + 1 ∧ (15 : Reg) ≤ 15 ∧
    (0xFFE : Word).toNat = ({ busy with i := 0xFF0 } : State).dataAddr + (14 : Reg).val := by decide

theorem witness_ResetForgetsEveryRun : ∃ t, runSteps 1 State.reset = some t := ⟨_, rfl⟩

theorem witness_LoadCopiesTheImage :
    haltedState.fault ≠ none ∧ busy.fault = none ∧ 4096 < 0x200 + 3585 ∧ 0x200 + 3584 ≤ 4096 ∧
    (0x1FF < 0x200 ∧ 0x200 + 1 ≤ 0x201) := by decide

theorem witness_ZeroedMemoryFaultsAtOnce : ∃ t, State.raiseEvent .reset busy = .next t := ⟨_, rfl⟩

theorem witness_TickTimersDecrementsBothTimers :
    haltedState.fault ≠ none ∧ busy.fault = none ∧ ({ busy with st := 1 } : State).st = 1 ∧ ({ busy with st := 0 } : State).st ≠ 1 := by
  decide

theorem witness_OneToneEdgePerSetting : busy.fault = none ∧ 0x2A + 1 = busy.st.toNat := by decide

theorem witness_KeypressSetsOneLatch : busy.fault = none ∧ (7 : Key) ≠ 15 := by decide

theorem witness_GetDisplayShowsTheFramebuffer : busy.fault = none := by decide

theorem witness_ClsClearsEveryPixel : (0x00E0 : Word) &&& 0xFFFF = 0x00E0 := by decide

/-- The frames of the fault clauses: an instruction fetched as `w` from `a`. -/
theorem witness_takesFault :
    decodeWord 0x00EE = .ok .ret ∧ decodeWord 0x2300 = .ok (.call 0x300) ∧
    decodeWord 0xD012 = .ok (.drw 0 1 2) ∧ decodeWord 0xF033 = .ok (.ldB 0) ∧
    decodeWord 0xFF55 = .ok (.stRegs 15) ∧ decodeWord 0xF065 = .ok (.ldRegs 0) ∧
    decodeWord 0xE49E = .ok (.skp 4) ∧ decodeWord 0xE4A1 = .ok (.sknp 4) ∧ busy.pc = (0x200 : Word) + 2 := by
  decide

theorem witness_DrawXorsTheSpriteMask :
    (0xD012 : Word) &&& 0xF000 = 0xD000 ∧
    (2 < 16 ∧ 0 < 2 ∧ 4096 ≤ ({ busy with i := 0xFFF } : State).dataAddr + 2 - 1) ∧
    ((0 = 0 ∨ ({ busy with i := 0xFFFF } : State).dataAddr + 0 - 1 < 4096) ∧
      ({ busy with i := 0xFFF } : State).dataAddr + 1 - 1 < 4096) ∧
    spriteMask busy 2 7 1 2 7 ∧ ¬ spriteMask busy 2 7 1 2 8 := by
  refine ⟨by decide, by decide, by decide, ⟨0, by decide, 0, by decide, by decide, by decide, by decide⟩, ?_⟩
  rintro ⟨r, hr, c, -, -, -, h⟩
  omega

/-- The pixel (2, 7) of `busy` is lit; after RESET none is. -/
theorem witness_DrawXorsTheSpriteMask_hits :
    spriteHits busy 2 7 1 ∧ ¬ spriteHits State.reset 2 7 1 := by
  refine ⟨⟨2, 7, ⟨0, by decide, 0, by decide, by decide, by decide, by decide⟩, by decide⟩, ?_⟩
  rintro ⟨cx, cy, -, h⟩
  rw [show State.reset.disp = Vector.replicate 32 0 from rfl, Display.pixel_replicate] at h
  cases h

theorem witness_DrawingIsAnInvolutionAndCommutes :
    (1 : Reg) ≠ 15 ∧ (2 : Reg) ≠ 15 ∧ 1 < 16 ∧ ({ busy with i := 0xFFF } : State).dataAddr + 1 - 1 < 4096 ∧
    ∀ p, Display.bit State.reset.disp p = false :=
  ⟨by decide, by decide, by decide, by decide, fun _ => Display.pixel_replicate _ _⟩

theorem witness_RetPopsTheReturnAddress :
    (0x00EE : Word) &&& 0xFFFF = 0x00EE ∧ State.reset.sp.val = 0 ∧
    ({ busy with sp := 16 } : State).sp.val = 15 + 1 := by decide

theorem witness_JumpsSetThePc :
    (0x1FFF : Word) &&& 0xF000 = 0x1000 ∧ (0xBFFF : Word) &&& 0xF000 = 0xB000 ∧
    (0xFFF : Word).toNat < 4096 := by decide

/-- The least target with no word to fetch, and the greatest that Bnnn reaches. -/
theorem witness_JumpsSetThePc_beyond :
    (∃ t, exec (.jp 0xFFF) busy = .next t ∧ busy.fault = none ∧ 4095 ≤ t.pc.toNat) ∧
    ∃ t, exec (.jpV0 0xFFF) { busy with v := regs [(0, 0xFF)] } = .next t ∧ 4095 ≤ t.pc.toNat :=
  ⟨⟨_, rfl, rfl, by decide⟩, _, rfl, by decide⟩

theorem witness_CallPushesTheAdvancedPc :
    (0x2FFF : Word) &&& 0xF000 = 0x2000 ∧ (0xFFF : Word).toNat < 4096 ∧
    ({ busy with sp := 16 } : State).sp.val = 16 ∧ ({ busy with sp := 15 } : State).sp.val < 16 := by decide

theorem witness_ReturnResumesAfterTheCall :
    ∃ t, exec (.call 0x345) busy = .next t ∧ busy.fault = none ∧ t.fault = none := ⟨_, rfl, rfl, rfl⟩

theorem witness_SixteenNestedCallsAreLegal : State.reset.sp.val = 0 ∧ State.reset.fault = none := by decide

theorem witness_SkipsCompareTheirOperands :
    (0x3FFF : Word) &&& 0xF000 = 0x3000 ∧ (0x4FFF : Word) &&& 0xF000 = 0x4000 ∧
    (0x5FF0 : Word) &&& 0xF00F = 0x5000 ∧ (0x9FF0 : Word) &&& 0xF00F = 0x9000 := by decide

theorem witness_LoadsWriteOneRegister :
    (0x6FFF : Word) &&& 0xF000 = 0x6000 ∧ (0x8FF0 : Word) &&& 0xF00F = 0x8000 := by decide

theorem witness_AddImmediateWrapsWithoutFlag : (0x7FFF : Word) &&& 0xF000 = 0x7000 := by decide

theorem witness_LogicActsBitByBit :
    (0x8FF1 : Word) &&& 0xF00F = 0x8001 ∧ (0x8FF2 : Word) &&& 0xF00F = 0x8002 ∧
    (0x8FF3 : Word) &&& 0xF00F = 0x8003 := by decide

theorem witness_AddSetsTheCarry : (0x8FF4 : Word) &&& 0xF00F = 0x8004 ∧ (14 : Reg) ≠ 15 := by decide

theorem witness_SubtractionsSetNoBorrow :
    (0x8FF5 : Word) &&& 0xF00F = 0x8005 ∧ (0x8FF7 : Word) &&& 0xF00F = 0x8007 ∧ (14 : Reg) ≠ 15 := by decide

theorem witness_ShiftsCatchTheBitShiftedOut :
    (0x8FF6 : Word) &&& 0xF00F = 0x8006 ∧ (0x8FFE : Word) &&& 0xF00F = 0x800E ∧ (14 : Reg) ≠ 15 := by decide

theorem witness_RndMasksTheRandomByte : (0xCFFF : Word) &&& 0xF000 = 0xC000 ∧ busy.inp.rnd = 0xA7 := by decide

theorem witness_IndexLoadAndAddWriteOnlyI :
    (0xAFFF : Word) &&& 0xF000 = 0xA000 ∧ (0xFF1E : Word) &&& 0xF0FF = 0xF01E := by decide

theorem witness_FontAddressIsTheExactProduct : (0xFF29 : Word) &&& 0xF0FF = 0xF029 := by decide

theorem witness_BcdStoresThreeDigits :
    (0xFF33 : Word) &&& 0xF0FF = 0xF033 ∧ 4096 ≤ ({ busy with i := 0xFFE } : State).dataAddr + 2 ∧
    ({ busy with i := 0xFFD } : State).dataAddr + 2 < 4096 := by decide

theorem witness_StoreRegistersWritesTheSpan :
    (0xFF55 : Word) &&& 0xF0FF = 0xF055 ∧ 4096 ≤ ({ busy with i := 0xFF1 } : State).dataAddr + (15 : Reg).val ∧
    ({ busy with i := 0xFF0 } : State).dataAddr + (15 : Reg).val < 4096 := by decide

theorem witness_LoadRegistersReadsTheSpan :
    (0xFF65 : Word) &&& 0xF0FF = 0xF065 ∧ 4096 ≤ ({ busy with i := 0xFF1 } : State).dataAddr + (15 : Reg).val ∧
    ({ busy with i := 0xFF0 } : State).dataAddr + (15 : Reg).val < 4096 ∧ (14 : Reg) < 15 := by decide

theorem witness_StoreThenLoadRestoresTheRegisters :
    ({ busy with i := 0xFF0 } : State).dataAddr + (15 : Reg).val < 4096 := by decide

theorem witness_KeySkipsReadTheLatch :
    (0xEF9E : Word) &&& 0xF0FF = 0xE09E ∧ (0xEFA1 : Word) &&& 0xF0FF = 0xE0A1 ∧
    16 ≤ (({ busy with v := regs [(1, 16)] } : State).reg 1).toNat ∧
    (({ busy with v := regs [(1, 15)] } : State).reg 1).toNat < 16 := by decide

theorem witness_TimerInstructionsMoveOneByte :
    (0xFF07 : Word) &&& 0xF0FF = 0xF007 ∧ (0xFF15 : Word) &&& 0xF0FF = 0xF015 ∧
    (0xFF18 : Word) &&& 0xF0FF = 0xF018 := by decide

theorem witness_KeyWaitTakesTheLeastKey :
    (0xFF0A : Word) &&& 0xF0FF = 0xF00A ∧
    (busy.key[(7 : Key).val] = true ∧ ∀ j : Key, j < 7 → busy.key[j.val] = false) ∧
    ∀ k : Key, State.reset.key[k.val] = false := by decide

/-- The longest image, a second LOAD before the first TICK, and a LOAD after a RESET. -/
theorem witness_HostDutyKeepsEveryRunGoing :
    hostKeepsLoadDuty false [.load (List.replicate 3584 0), .load [1], .tick 0, .reset, .load [2]] = true ∧
    hostKeepsLoadDuty false [.tick 0, .load [1]] = false ∧
    ∀ f len, busy.fault = some f → f.cause ≠ .loadOutOfBounds len := by
  refine ⟨?_, by decide, fun f len h => by cases h⟩
  simp only [hostKeepsLoadDuty, List.length_replicate]
  decide

theorem witness_KeyWaitLeavesTheCoreAsItWas :
    (State.reset.withFetchWord 16 0xF30A).fault = none ∧
    (State.reset.withFetchWord 16 0xF30A).pc.toNat + 1 < 4096 ∧
    decodeWord (wordOfBytes ((State.reset.withFetchWord 16 0xF30A).byteAt 0x200)
      ((State.reset.withFetchWord 16 0xF30A).byteAt 0x201)) = .ok (.ldVxK 3) ∧
    ∀ k : Key, (State.reset.withFetchWord 16 0xF30A).key[k.val] = false := by decide

end Sys2Proof.Tests
end

/-! # PROOFS. RESET (spec/10_state.md R35, spec/70_reset_and_hazards.md R220) -/

namespace Sys2Proof.Machine

/-! ### What is read after RESET -/

/-- The event RESET is `State.toReset`, halted or not (R192, R220). -/
@[simp] theorem State.raiseEvent_reset (s : State) : s.raiseEvent .reset = .next s.toReset := rfl

@[simp] theorem State.reg_toReset (s : State) (x : Reg) : s.toReset.reg x = 0 := by
  simp [State.reg]

/-- The cleared framebuffer, read by pixel number (R31). -/
theorem Display.bit_replicate (p : Nat) : Display.bit (Vector.replicate 32 0) p = false :=
  Display.pixel_replicate _ _

/-- Below 0x050 memory holds FONT again (R35, R36). -/
theorem State.byteAt_toReset_of_lt (s : State) {a : Nat} (h : a < 80) : s.toReset.byteAt a = s.font[a] :=
  (State.byteAt_resetWith s.font s.inp a).trans (dif_pos h)

/-- From 0x050 on memory is zero (R35). -/
theorem State.byteAt_toReset_of_le (s : State) {a : Nat} (h : 80 ≤ a) : s.toReset.byteAt a = 0 :=
  (State.byteAt_resetWith s.font s.inp a).trans (dif_neg (Nat.not_lt.mpr h))

/-! ### O26 -/

/-- Settles O26: the state is `s.toReset`, and each element is read off it by its own lemma. -/
theorem resetGivesEveryElementItsValue : Obligations.ResetGivesEveryElementItsValue := by
  intro s
  have hstack : ∀ j (h : j < 16), s.toReset.stack[j] = 0 := by simp
  have hkey : ∀ k (h : k < 16), s.toReset.key[k] = false := by simp
  have hdisp : ∀ p, Display.bit s.toReset.disp p = false := by
    rw [s.toReset_disp]
    exact Display.bit_replicate
  exact ⟨s.toReset, s.raiseEvent_reset, s.reg_toReset, s.toReset_pc, s.toReset_i, hstack,
    congrArg Fin.val s.toReset_sp, s.toReset_dt, s.toReset_st, hkey, hdisp,
    fun _ => s.byteAt_toReset_of_lt, fun _ => s.byteAt_toReset_of_le, s.toReset_fault⟩

end Sys2Proof.Machine

/-! # PROOFS. The encoding (spec/30_encoding.md) -/

namespace Sys2Proof.Machine

/-! ### A word and its two bytes (R54, R78) -/

/-- The two bytes of a word, high byte first, make up that word again. -/
theorem wordOfBytes_extractLsb' (w : Word) : wordOfBytes (w.extractLsb' 8 8) (w.extractLsb' 0 8) = w :=
  (BitVec.extractLsb'_append_extractLsb'_eq_extractLsb' rfl).trans BitVec.extractLsb'_eq_self

/-- Every word is made of a high and a low byte, which are its bytes in memory order. -/
theorem exists_bytesOfWord_eq (w : Word) :
    ∃ hi lo : Byte, bytesOfWord w = [hi, lo] ∧ w.toNat = hi.toNat * 256 + lo.toNat := by
  refine ⟨w.extractLsb' 8 8, w.extractLsb' 0 8, rfl, ?_⟩
  rw [← wordOfBytes_toNat, wordOfBytes_extractLsb']

/-- Decoding a stream that begins with the bytes of `w` takes these two bytes and no more. -/
theorem decodeBytes_bytesOfWord_append (w : Word) (rest : List Byte) :
    decodeBytes (bytesOfWord w ++ rest) = (decodeWord w).map fun i => (i, rest) := by
  show (decodeWord (wordOfBytes (w.extractLsb' 8 8) (w.extractLsb' 0 8))).map (fun i => (i, rest)) = _
  rw [wordOfBytes_extractLsb']

/-! ### O6 -/

/-- Settles O6: each field by the lemma that gives it as a number, the bytes by their making up the word. -/
theorem operandsAreTheFieldsOfTheWord : Obligations.OperandsAreTheFieldsOfTheWord := fun w =>
  ⟨fieldD1_toNat w, fieldX_val w, fieldY_val w, fieldKk_toNat w, fieldN_toNat w, fieldNnn_toNat w,
    exists_bytesOfWord_eq w, decodeBytes_bytesOfWord_append w⟩

end Sys2Proof.Machine

/-! # PROOFS. The display instructions (spec/40_display.md) -/

namespace Sys2Proof.Machine

/-! ### 00E0 (R101) -/

/-- The mask of a whole-word row of R80 leaves the word as it is. -/
theorem and_FFFF (w : Word) : w &&& 0xFFFF = w := BitVec.and_allOnes

/-- The one word in the row of 00E0 decodes to it. -/
theorem decodeWord_cls : decodeWord 0x00E0 = .ok .cls := rfl

/-- What 00E0 does: the framebuffer is replaced by the empty one. -/
theorem exec_cls (s : State) : exec .cls s = .next { s with disp := Vector.replicate 32 0 } := rfl

/-! ### O34 -/

/-- Settles O34: the mask fixes the whole word, and the framebuffer that 00E0 leaves has no pixel set. -/
theorem clsClearsEveryPixel : Obligations.ClsClearsEveryPixel := by
  refine ⟨fun w hw => ?_, fun s => ⟨_, exec_cls s, Display.bit_replicate, rfl⟩⟩
  rw [and_FFFF] at hw
  rw [hw, decodeWord_cls]

end Sys2Proof.Machine

/-! # PROOFS. Control transfer (spec/41_flow.md) -/

namespace Sys2Proof.Machine

/-! ### The rows of the compare-and-skip instructions (R80) -/

theorem decodeWord_seImm {w : Word} (h : fieldD1 w = 0x3#4) :
    decodeWord w = .ok (.seImm (fieldX w) (fieldKk w)) := by
  simp only [decodeWord, h]

theorem decodeWord_sneImm {w : Word} (h : fieldD1 w = 0x4#4) :
    decodeWord w = .ok (.sneImm (fieldX w) (fieldKk w)) := by
  simp only [decodeWord, h]

theorem decodeWord_seReg {w : Word} (h : fieldD1 w = 0x5#4) (hn : fieldN w = 0) :
    decodeWord w = .ok (.seReg (fieldX w) (fieldY w)) := by
  simp only [decodeWord, h, hn, if_true]

theorem decodeWord_sneReg {w : Word} (h : fieldD1 w = 0x9#4) (hn : fieldN w = 0) :
    decodeWord w = .ok (.sneReg (fieldX w) (fieldY w)) := by
  simp only [decodeWord, h, hn, if_true]

/-! ### A skip on a comparison of two bytes (R110) -/

theorem State.skipIf_beq (s : State) (a b : Byte) :
    s.skipIf (a == b) = { s with pc := if a = b then s.pc + 2 else s.pc } := by
  simp only [State.skipIf_eq, beq_iff_eq]

theorem State.skipIf_bne (s : State) (a b : Byte) :
    s.skipIf (a != b) = { s with pc := if a = b then s.pc else s.pc + 2 } := by
  simp only [State.skipIf_eq, bne_iff_ne, ne_eq, ite_not]

/-! ### O42 -/

/-- Settles O42: each mask fixes the major opcode, and for the register forms the minor one too; each meaning
is a skip on the equality of its two operands or on its negation. -/
theorem skipsCompareTheirOperands : Obligations.SkipsCompareTheirOperands := by
  refine ⟨fun w hw => decodeWord_seImm (fieldD1_of_and hw rfl),
    fun w hw => decodeWord_sneImm (fieldD1_of_and hw rfl),
    fun w hw => decodeWord_seReg (fieldD1_of_and hw rfl) (fieldN_of_and hw rfl),
    fun w hw => decodeWord_sneReg (fieldD1_of_and hw rfl) (fieldN_of_and hw rfl),
    fun x y kk s => ⟨?seImm, ?sneImm, ?seReg, ?sneReg⟩⟩
  case seImm => exact congrArg Host.Outcome.next (s.skipIf_beq (s.reg x) kk)
  case sneImm => exact congrArg Host.Outcome.next (s.skipIf_bne (s.reg x) kk)
  case seReg => exact congrArg Host.Outcome.next (s.skipIf_beq (s.reg x) (s.reg y))
  case sneReg => exact congrArg Host.Outcome.next (s.skipIf_bne (s.reg x) (s.reg y))

end Sys2Proof.Machine

/-! # PROOFS. Register load and arithmetic (spec/42_alu.md) -/

namespace Sys2Proof.Machine

/-! ### The rows of the loads and the immediate addition (R80) -/

theorem decodeWord_ldImm {w : Word} (h : fieldD1 w = 0x6#4) :
    decodeWord w = .ok (.ldImm (fieldX w) (fieldKk w)) := by
  simp only [decodeWord, h]

theorem decodeWord_addImm {w : Word} (h : fieldD1 w = 0x7#4) :
    decodeWord w = .ok (.addImm (fieldX w) (fieldKk w)) := by
  simp only [decodeWord, h]

/-- Family 8 is told apart by `d4` (R91), so its rows all decode through `decode8`. -/
theorem decodeWord_family8 {w : Word} (h : fieldD1 w = 0x8#4) : decodeWord w = decode8 w := by
  simp only [decodeWord, h]

theorem decodeWord_ldReg {w : Word} (h : fieldD1 w = 0x8#4) (hn : fieldN w = 0x0#4) :
    decodeWord w = .ok (.ldReg (fieldX w) (fieldY w)) := by
  rw [decodeWord_family8 h]
  simp only [decode8, hn]

/-! ### The meanings as one register write (R131, R132, R133) -/

theorem exec_ldImm (x : Reg) (kk : Byte) (s : State) : exec (.ldImm x kk) s = .next (s.setReg x kk) := rfl

theorem exec_addImm (x : Reg) (kk : Byte) (s : State) :
    exec (.addImm x kk) s = .next (s.setReg x (s.reg x + kk)) := rfl

theorem exec_ldReg (x y : Reg) (s : State) : exec (.ldReg x y) s = .next (s.setReg x (s.reg y)) := rfl

/-- The frame of a register write: every other register and every other element of the state stay. -/
theorem onlyRegsChange_setReg (s : State) (x : Reg) (b : Byte) : onlyRegsChange s (s.setReg x b) [x] :=
  ⟨fun _ hr => s.reg_setReg_ne (List.ne_of_not_mem_cons hr) b, rfl⟩

/-! ### O43 -/

/-- Settles O43: the masks fix the opcode fields, and each meaning is one register write. -/
theorem loadsWriteOneRegister : Obligations.LoadsWriteOneRegister := by
  refine ⟨fun w hw => decodeWord_ldImm (fieldD1_of_and hw rfl),
    fun w hw => decodeWord_ldReg (fieldD1_of_and hw rfl) (fieldN_of_and hw rfl),
    fun x y kk s => ⟨?ldImm, ?ldReg⟩⟩
  case ldImm => exact ⟨_, exec_ldImm x kk s, s.reg_setReg_self x kk, onlyRegsChange_setReg s x kk⟩
  case ldReg =>
    exact ⟨_, exec_ldReg x y s, s.reg_setReg_self x (s.reg y), onlyRegsChange_setReg s x (s.reg y)⟩

/-! ### O44 -/

/-- Settles O44: the mask fixes the major opcode, and the one register write is of the byte sum, which is the
sum modulo 256. -/
theorem addImmediateWrapsWithoutFlag : Obligations.AddImmediateWrapsWithoutFlag := by
  refine ⟨fun w hw => decodeWord_addImm (fieldD1_of_and hw rfl),
    fun x kk s => ⟨_, exec_addImm x kk s, ?_, onlyRegsChange_setReg s x (s.reg x + kk)⟩⟩
  rw [s.reg_setReg_self, BitVec.toNat_add]

end Sys2Proof.Machine

/-! # PROOFS. Index register (spec/43_index_memory.md) -/

namespace Sys2Proof.Machine

/-! ### The rows of the index instructions (R80) -/

theorem decodeWord_ldI {w : Word} (h : fieldD1 w = 0xA#4) : decodeWord w = .ok (.ldI (fieldNnn w)) := by
  simp only [decodeWord, h]

/-- Family F is told apart by `kk` (R91), so its rows all decode through `decodeF`. -/
theorem decodeWord_familyF {w : Word} (h : fieldD1 w = 0xF#4) : decodeWord w = decodeF w := by
  rw [decodeWord, h]
  rfl

theorem decodeWord_addI {w : Word} (h : fieldD1 w = 0xF#4) (hk : fieldKk w = 0x1E#8) :
    decodeWord w = .ok (.addI (fieldX w)) := by
  rw [decodeWord_familyF h]
  simp only [decodeF, hk]

/-! ### The meanings as one write of `I` (R156, R157) -/

theorem exec_ldI (nnn : Word) (s : State) : exec (.ldI nnn) s = .next { s with i := nnn } := rfl

theorem exec_addI (x : Reg) (s : State) :
    exec (.addI x) s = .next { s with i := s.i + zext16 (s.reg x) } := rfl

/-- A byte extended with zeros to 16 bits is the same number. -/
theorem zext16_toNat (b : Byte) : (zext16 b).toNat = b.toNat :=
  BitVec.toNat_setWidth_of_le (by decide)

/-! ### O50 -/

/-- Settles O50: the masks fix the opcode fields, and each meaning is one write of `I`, for Fx1E of the 16-bit
sum, which is the sum modulo 65536. -/
theorem indexLoadAndAddWriteOnlyI : Obligations.IndexLoadAndAddWriteOnlyI := by
  refine ⟨fun w hw => decodeWord_ldI (fieldD1_of_and hw rfl),
    fun w hw => decodeWord_addI (fieldD1_of_and hw rfl) (fieldKk_of_and hw rfl),
    fun x nnn s => ⟨exec_ldI nnn s, _, exec_addI x s, ?_, rfl⟩⟩
  rw [BitVec.toNat_add, zext16_toNat]

end Sys2Proof.Machine

/-! # PROOFS. Timers and the key wait (spec/44_keypad_timers.md) -/

namespace Sys2Proof.Machine

/-! ### The rows of the timer instructions and of the key wait (R80) -/

theorem decodeWord_ldVxDt {w : Word} (h : fieldD1 w = 0xF#4) (hk : fieldKk w = 0x07#8) :
    decodeWord w = .ok (.ldVxDt (fieldX w)) := by
  rw [decodeWord_familyF h]
  simp only [decodeF, hk]

theorem decodeWord_ldVxK {w : Word} (h : fieldD1 w = 0xF#4) (hk : fieldKk w = 0x0A#8) :
    decodeWord w = .ok (.ldVxK (fieldX w)) := by
  rw [decodeWord_familyF h]
  simp only [decodeF, hk]

theorem decodeWord_ldDtVx {w : Word} (h : fieldD1 w = 0xF#4) (hk : fieldKk w = 0x15#8) :
    decodeWord w = .ok (.ldDtVx (fieldX w)) := by
  rw [decodeWord_familyF h]
  simp only [decodeF, hk]

theorem decodeWord_ldStVx {w : Word} (h : fieldD1 w = 0xF#4) (hk : fieldKk w = 0x18#8) :
    decodeWord w = .ok (.ldStVx (fieldX w)) := by
  rw [decodeWord_familyF h]
  simp only [decodeF, hk]

/-! ### The meanings of the timer instructions as one write (R173, R175, R176) -/

theorem exec_ldVxDt (x : Reg) (s : State) : exec (.ldVxDt x) s = .next (s.setReg x s.dt) := rfl

theorem exec_ldDtVx (x : Reg) (s : State) : exec (.ldDtVx x) s = .next { s with dt := s.reg x } := rfl

theorem exec_ldStVx (x : Reg) (s : State) : exec (.ldStVx x) s = .next { s with st := s.reg x } := rfl

/-! ### O57 -/

/-- Settles O57: the masks fix the opcode fields, and each meaning is one write, of a register or of a timer. -/
theorem timerInstructionsMoveOneByte : Obligations.TimerInstructionsMoveOneByte := by
  refine ⟨fun w hw => decodeWord_ldVxDt (fieldD1_of_and hw rfl) (fieldKk_of_and hw rfl),
    fun w hw => decodeWord_ldDtVx (fieldD1_of_and hw rfl) (fieldKk_of_and hw rfl),
    fun w hw => decodeWord_ldStVx (fieldD1_of_and hw rfl) (fieldKk_of_and hw rfl),
    fun x s => ⟨?ldVxDt, exec_ldDtVx x s, exec_ldStVx x s⟩⟩
  case ldVxDt => exact ⟨_, exec_ldVxDt x s, s.reg_setReg_self x s.dt, onlyRegsChange_setReg s x s.dt⟩

/-! ### A key's index as a byte (R174) -/

/-- The byte that Fx0A stores is the index itself: it is below 16, so nothing is cut off. -/
theorem Key.toNat_ofNat_val (k : Key) : (BitVec.ofNat 8 k.val).toNat = k.val :=
  Nat.mod_eq_of_lt (k.isLt.trans (by decide))

/-! ### O58 -/

/-- Settles O58: the first case says that `k` is the lowest key down, whose index the one register write
stores; the second says that there is none, and the instruction only rewinds `pc`. -/
theorem keyWaitTakesTheLeastKey : Obligations.KeyWaitTakesTheLeastKey := by
  refine ⟨fun w hw => decodeWord_ldVxK (fieldD1_of_and hw rfl) (fieldKk_of_and hw rfl),
    fun x s => ⟨fun k hdown hleast => ?pressed, fun hnone => ?waiting⟩⟩
  case pressed =>
    have hk : s.lowestKeyDown = some k := s.lowestKeyDown_some.mpr ⟨hdown, hleast⟩
    refine ⟨_, exec_ldVxK_some s x hk, ?_, onlyRegsChange_setReg s x _⟩
    rw [s.reg_setReg_self, Key.toNat_ofNat_val]
  case waiting => exact exec_ldVxK_none s x (s.lowestKeyDown_none.mpr hnone)

end Sys2Proof.Machine

/-! # PROOFS. The framebuffer shown to the host (spec/60_exceptions.md) -/

namespace Sys2Proof.Machine

/-! ### The event GET_DISPLAY (R207) -/

@[simp] theorem State.raiseEvent_getDisplay (s : State) : s.raiseEvent .getDisplay = .next s := rfl

/-- A running core has a view, its framebuffer (R207). -/
theorem State.displayView_of_running {s : State} (h : s.fault = none) : s.displayView = some s.disp := by
  simp [State.displayView, State.halted_eq_false h]

/-- GET_DISPLAY tells the host the framebuffer of a running core (R207), whatever state follows. -/
theorem hostOutput_getDisplay_of_running {s : State} (h : s.fault = none) (t : State) :
    hostOutput .getDisplay s t = .view s.disp := by
  rw [hostOutput, State.displayView_of_running h, Option.elim_some]

/-! ### O33 -/

/-- Settles O33: the event keeps the state, and RESET leaves a running core, which shows its cleared
framebuffer. -/
theorem getDisplayShowsTheFramebuffer : Obligations.GetDisplayShowsTheFramebuffer := by
  intro s
  have hview : hostOutput .getDisplay s.toReset s.toReset = .view (Vector.replicate 32 0) := by
    rw [hostOutput_getDisplay_of_running s.toReset_fault, s.toReset_disp]
  exact ⟨s.raiseEvent_getDisplay, fun h => hostOutput_getDisplay_of_running h s,
    s.toReset, _, s.raiseEvent_reset, hview, Display.bit_replicate⟩

end Sys2Proof.Machine

/-! # PROOFS. The decoder and the opcode map (spec/30_encoding.md R77 to R91) -/

namespace Sys2Proof.Machine

/-! ### The row of a word -/

/-- The instruction of the same row of R80 whose operands are the fields of `w` (R83). -/
def withFieldsOf (w : Word) : Instr → Instr
  | .cls => .cls
  | .ret => .ret
  | .jp _ => .jp (fieldNnn w)
  | .call _ => .call (fieldNnn w)
  | .seImm _ _ => .seImm (fieldX w) (fieldKk w)
  | .sneImm _ _ => .sneImm (fieldX w) (fieldKk w)
  | .seReg _ _ => .seReg (fieldX w) (fieldY w)
  | .sneReg _ _ => .sneReg (fieldX w) (fieldY w)
  | .ldImm _ _ => .ldImm (fieldX w) (fieldKk w)
  | .addImm _ _ => .addImm (fieldX w) (fieldKk w)
  | .ldReg _ _ => .ldReg (fieldX w) (fieldY w)
  | .orReg _ _ => .orReg (fieldX w) (fieldY w)
  | .andReg _ _ => .andReg (fieldX w) (fieldY w)
  | .xorReg _ _ => .xorReg (fieldX w) (fieldY w)
  | .addReg _ _ => .addReg (fieldX w) (fieldY w)
  | .sub _ _ => .sub (fieldX w) (fieldY w)
  | .shr _ => .shr (fieldX w)
  | .subn _ _ => .subn (fieldX w) (fieldY w)
  | .shl _ => .shl (fieldX w)
  | .ldI _ => .ldI (fieldNnn w)
  | .jpV0 _ => .jpV0 (fieldNnn w)
  | .rnd _ _ => .rnd (fieldX w) (fieldKk w)
  | .drw _ _ _ => .drw (fieldX w) (fieldY w) (fieldN w).toNat
  | .skp _ => .skp (fieldX w)
  | .sknp _ => .sknp (fieldX w)
  | .ldVxDt _ => .ldVxDt (fieldX w)
  | .ldVxK _ => .ldVxK (fieldX w)
  | .ldDtVx _ => .ldDtVx (fieldX w)
  | .ldStVx _ => .ldStVx (fieldX w)
  | .addI _ => .addI (fieldX w)
  | .ldF _ => .ldF (fieldX w)
  | .ldB _ => .ldB (fieldX w)
  | .stRegs _ => .stRegs (fieldX w)
  | .ldRegs _ => .ldRegs (fieldX w)

/-- Decoding a word of a row of R80 gives that row's instruction with the fields of the word. -/
theorem decodeWord_of_row {w : Word} (i : Instr) (h : w &&& i.opMask = i.opMatch) :
    decodeWord w = .ok (withFieldsOf w i) := by
  cases i <;> simp only [Instr.opMask, Instr.opMatch] at h
  case cls | ret =>
    obtain rfl := (and_FFFF w).symm.trans h
    rfl
  case jp | call | seImm | sneImm | ldImm | addImm | ldI | jpV0 | rnd | drw =>
    rw [decodeWord, fieldD1_of_and h rfl]
    rfl
  case seReg => exact decodeWord_seReg (fieldD1_of_and h rfl) (fieldN_of_and h rfl)
  case sneReg => exact decodeWord_sneReg (fieldD1_of_and h rfl) (fieldN_of_and h rfl)
  case ldReg | orReg | andReg | xorReg | addReg | sub | shr | subn | shl =>
    rw [decodeWord_family8 (fieldD1_of_and h rfl), decode8, fieldN_of_and h rfl]
    rfl
  case skp | sknp =>
    rw [decodeWord, fieldD1_of_and h rfl]
    show decodeE w = _
    rw [decodeE, fieldKk_of_and h rfl]
    rfl
  case ldVxDt | ldVxK | ldDtVx | ldStVx | addI | ldF | ldB | stRegs | ldRegs =>
    rw [decodeWord_familyF (fieldD1_of_and h rfl), decodeF, fieldKk_of_and h rfl]
    rfl

/-- The word of every instruction lies in the instruction's own row. -/
theorem opcodeRow : ∀ i : Instr, Laws.OpcodeRow.Statement i
  | .cls => Laws.OpcodeRow.cls
  | .ret => Laws.OpcodeRow.ret
  | .jp nnn => Laws.OpcodeRow.jp nnn
  | .call nnn => Laws.OpcodeRow.call nnn
  | .seImm x kk => Laws.OpcodeRow.seImm x kk
  | .sneImm x kk => Laws.OpcodeRow.sneImm x kk
  | .seReg x y => Laws.OpcodeRow.seReg x y
  | .sneReg x y => Laws.OpcodeRow.sneReg x y
  | .ldImm x kk => Laws.OpcodeRow.ldImm x kk
  | .addImm x kk => Laws.OpcodeRow.addImm x kk
  | .ldReg x y => Laws.OpcodeRow.ldReg x y
  | .orReg x y => Laws.OpcodeRow.orReg x y
  | .andReg x y => Laws.OpcodeRow.andReg x y
  | .xorReg x y => Laws.OpcodeRow.xorReg x y
  | .addReg x y => Laws.OpcodeRow.addReg x y
  | .sub x y => Laws.OpcodeRow.sub x y
  | .shr x => Laws.OpcodeRow.shr x
  | .subn x y => Laws.OpcodeRow.subn x y
  | .shl x => Laws.OpcodeRow.shl x
  | .ldI nnn => Laws.OpcodeRow.ldI nnn
  | .jpV0 nnn => Laws.OpcodeRow.jpV0 nnn
  | .rnd x kk => Laws.OpcodeRow.rnd x kk
  | .drw x y n => Laws.OpcodeRow.drw x y n
  | .skp x => Laws.OpcodeRow.skp x
  | .sknp x => Laws.OpcodeRow.sknp x
  | .ldVxDt x => Laws.OpcodeRow.ldVxDt x
  | .ldVxK x => Laws.OpcodeRow.ldVxK x
  | .ldDtVx x => Laws.OpcodeRow.ldDtVx x
  | .ldStVx x => Laws.OpcodeRow.ldStVx x
  | .addI x => Laws.OpcodeRow.addI x
  | .ldF x => Laws.OpcodeRow.ldF x
  | .ldB x => Laws.OpcodeRow.ldB x
  | .stRegs x => Laws.OpcodeRow.stRegs x
  | .ldRegs x => Laws.OpcodeRow.ldRegs x

/-- The operands of a well-formed instruction are the fields of its word (R79). -/
theorem withFieldsOf_encode {i : Instr} (h : i.wellFormed = true) : withFieldsOf (encode i) i = i := by
  cases i
  case cls | ret => rfl
  case jp | call | ldI | jpV0 =>
    simp only [Instr.wellFormed, addressFits, decide_eq_true_eq] at h
    simp only [withFieldsOf, encode, fieldNnn_formatA _ h]
  case drw x y n =>
    simp only [Instr.wellFormed, rowsFit, decide_eq_true_eq] at h
    simp only [withFieldsOf, encode, fieldX_formatR, fieldY_formatR, fieldN_formatR,
      BitVec.toNat_ofNat, Nat.mod_eq_of_lt h]
  case seReg | sneReg | ldReg | orReg | andReg | xorReg | addReg | sub | shr | subn | shl =>
    simp only [withFieldsOf, encode, fieldX_formatR, fieldY_formatR]
  all_goals simp only [withFieldsOf, encode, fieldX_formatI, fieldKk_formatI]

/-! ### O1 -/

/-- Settles O1: the word of `i` lies in the row of `i`, so it decodes to that row's instruction with the fields
of the word, and these are the operands of `i`. -/
theorem decodeOfEncodeIsTheInstruction : Obligations.DecodeOfEncodeIsTheInstruction := fun i h => by
  rw [decodeWord_of_row i (opcodeRow i h), withFieldsOf_encode h]

/-! ### The masks of R80 as the fields they keep -/

theorem and_F000 (w : Word) : w &&& 0xF000 = fieldD1 w ++ 0#12 :=
  (congrArg (· &&& 0xF000) (word_eq_formatA w)).trans (formatA_and_F000 ..)

theorem and_F00F (w : Word) : w &&& 0xF00F = fieldD1 w ++ 0#4 ++ 0#4 ++ fieldN w :=
  (congrArg (· &&& 0xF00F) (word_eq_formatR w)).trans (formatR_and_F00F ..)

theorem and_F0FF (w : Word) : w &&& 0xF0FF = fieldD1 w ++ 0#4 ++ fieldKk w :=
  (congrArg (· &&& 0xF0FF) (word_eq_formatI w)).trans (formatI_and_F0FF ..)

/-! ### The decoder inverted -/

/-- The word lies in the row of `i`, and the operands of `i` are its fields. -/
def readsAs (w : Word) (i : Instr) : Prop := w &&& i.opMask = i.opMatch ∧ withFieldsOf w i = i

theorem decode0_inv {w : Word} {i : Instr} (h : decode0 w = .ok i) : readsAs w i := by
  unfold decode0 at h
  split at h
  · next hw => cases h; exact ⟨(and_FFFF w).trans hw, rfl⟩
  split at h
  · next hw => cases h; exact ⟨(and_FFFF w).trans hw, rfl⟩
  · cases h

theorem decode8_inv {w : Word} {i : Instr} (hd : fieldD1 w = 0x8#4) (h : decode8 w = .ok i) : readsAs w i := by
  have hrow {n : BitVec 4} (hn : fieldN w = n) : w &&& 0xF00F = 0x8#4 ++ 0#4 ++ 0#4 ++ n := by
    rw [and_F00F, hd, hn]
  unfold decode8 at h
  split at h
  case h_10 => cases h
  all_goals
    next hn => cases h; exact ⟨hrow hn, rfl⟩

theorem decodeE_inv {w : Word} {i : Instr} (hd : fieldD1 w = 0xE#4) (h : decodeE w = .ok i) : readsAs w i := by
  have hrow {kk : Byte} (hk : fieldKk w = kk) : w &&& 0xF0FF = 0xE#4 ++ 0#4 ++ kk := by
    rw [and_F0FF, hd, hk]
  unfold decodeE at h
  split at h
  case h_3 => cases h
  all_goals
    next hk => cases h; exact ⟨hrow hk, rfl⟩

theorem decodeF_inv {w : Word} {i : Instr} (hd : fieldD1 w = 0xF#4) (h : decodeF w = .ok i) : readsAs w i := by
  have hrow {kk : Byte} (hk : fieldKk w = kk) : w &&& 0xF0FF = 0xF#4 ++ 0#4 ++ kk := by
    rw [and_F0FF, hd, hk]
  unfold decodeF at h
  split at h
  case h_10 => cases h
  all_goals
    next hk => cases h; exact ⟨hrow hk, rfl⟩

theorem decodeWord_inv {w : Word} {i : Instr} (h : decodeWord w = .ok i) : readsAs w i := by
  have hrow {d : BitVec 4} (hd : fieldD1 w = d) : w &&& 0xF000 = d ++ 0#12 := by rw [and_F000, hd]
  have hrowR {d n : BitVec 4} (hd : fieldD1 w = d) (hn : fieldN w = n) :
      w &&& 0xF00F = d ++ 0#4 ++ 0#4 ++ n := by rw [and_F00F, hd, hn]
  unfold decodeWord at h
  split at h
  case h_1 => exact decode0_inv h
  case h_9 hd => exact decode8_inv hd h
  case h_15 hd => exact decodeE_inv hd h
  case h_16 =>
    have hd : fieldD1 w = 0xF#4 := by
      clear hrow hrowR
      generalize fieldD1 w = d at *
      revert d
      decide
    exact decodeF_inv hd h
  case h_6 | h_10 =>
    next hd => 
    split at h
    · next hn => cases h; exact ⟨hrowR hd hn, rfl⟩
    · cases h
  all_goals
    next hd => cases h; exact ⟨hrow hd, rfl⟩


/-! ### O2 -/

/-- The address field has 12 bits (R78). -/
theorem addressFits_fieldNnn (w : Word) : addressFits (fieldNnn w) = true := by
  rw [addressFits, fieldNnn_toNat, decide_eq_true_eq]
  exact Nat.mod_lt _ (by decide)

/-- Operands read from the fields of a word fit those fields. -/
theorem wellFormed_withFieldsOf (w : Word) (i : Instr) : (withFieldsOf w i).wellFormed = true := by
  cases i
  case jp | call | ldI | jpV0 => exact addressFits_fieldNnn w
  case drw => exact decide_eq_true (fieldN w).isLt
  all_goals rfl

theorem wellFormed_of_decodeWord {w : Word} {i : Instr} (h : decodeWord w = .ok i) : i.wellFormed = true :=
  (decodeWord_inv h).2 ▸ wellFormed_withFieldsOf w i

theorem formatR_and_FF0F (op : BitVec 4) (x y : Reg) (n : BitVec 4) :
    formatR op x y n &&& 0xFF0F = formatR op x 0 n := by
  show (op ++ nibbleOf x ++ nibbleOf y ++ n : BitVec (4 + 4 + 4 + 4)) &&& (0xF#4 ++ 0xF#4 ++ 0#4 ++ 0xF#4) =
    op ++ nibbleOf x ++ 0#4 ++ n
  rw [BitVec.and_append, BitVec.and_append, BitVec.and_append, and_F, and_F, and_F, BitVec.and_zero]

/-- What the canonical encoding of R89 keeps of the word of a shift: all but the y field. -/
theorem and_FF0F (w : Word) : w &&& 0xFF0F = formatR (fieldD1 w) (fieldX w) 0 (fieldN w) :=
  (congrArg (· &&& 0xFF0F) (word_eq_formatR w)).trans (formatR_and_FF0F ..)

/-- The mask of the rows of the shifts keeps no bit of the y field. -/
theorem and_FF0F_and_F00F (w : Word) : w &&& 0xFF0F &&& 0xF00F = w &&& 0xF00F :=
  BitVec.and_assoc w 0xFF0F 0xF00F

/-- The word of a row is the word of the row's instruction with its fields, for a row that ignores no field. -/
theorem encode_withFieldsOf {w : Word} {i : Instr} (hs : ∀ x, i ≠ .shr x ∧ i ≠ .shl x)
    (h : w &&& i.opMask = i.opMatch) : encode (withFieldsOf w i) = w := by
  cases i <;> simp only [Instr.opMask, Instr.opMatch] at h
  case cls | ret => exact h.symm.trans (and_FFFF w)
  case jp | call | ldI | jpV0 =>
    refine .trans ?_ (word_eq_formatA w).symm
    rw [fieldD1_of_and h rfl]
    rfl
  case seImm | sneImm | ldImm | addImm | rnd =>
    refine .trans ?_ (word_eq_formatI w).symm
    rw [fieldD1_of_and h rfl]
    rfl
  case drw =>
    refine .trans ?_ (word_eq_formatR w).symm
    rw [fieldD1_of_and h rfl, withFieldsOf, encode, BitVec.ofNat_toNat, BitVec.setWidth_eq]
    rfl
  case shr x => exact absurd rfl (hs x).1
  case shl x => exact absurd rfl (hs x).2
  case seReg | sneReg | ldReg | orReg | andReg | xorReg | addReg | sub | subn =>
    refine .trans ?_ (word_eq_formatR w).symm
    rw [fieldD1_of_and h rfl, fieldN_of_and h rfl]
    rfl
  case skp | sknp | ldVxDt | ldVxK | ldDtVx | ldStVx | addI | ldF | ldB | stRegs | ldRegs =>
    refine .trans ?_ (word_eq_formatI w).symm
    rw [fieldD1_of_and h rfl, fieldKk_of_and h rfl]
    rfl

theorem encode_withFieldsOf_shift {w : Word} {i : Instr} (hs : ∃ x, i = .shr x ∨ i = .shl x)
    (h : w &&& i.opMask = i.opMatch) : encode (withFieldsOf w i) = w &&& 0xFF0F := by
  obtain ⟨x, rfl | rfl⟩ := hs
  all_goals
    simp only [Instr.opMask, Instr.opMatch] at h
    rw [and_FF0F, fieldD1_of_and h rfl, fieldN_of_and h rfl]
    rfl

theorem encode_of_decodeWord {w : Word} {i : Instr} (h : decodeWord w = .ok i)
    (hs : ∀ x, i ≠ .shr x ∧ i ≠ .shl x) : encode i = w := by
  obtain ⟨hrow, hi⟩ := decodeWord_inv h
  rw [← hi, encode_withFieldsOf hs hrow]

/-- Settles O2: a decoded word lies in the row of its instruction and holds its operands, and encoding writes
the row's opcode and these operands back. -/
theorem encodeOfDecodeIsTheCanonicalWord : Obligations.EncodeOfDecodeIsTheCanonicalWord := by
  intro w i h
  refine ⟨wellFormed_of_decodeWord h, encode_of_decodeWord h, fun hs => ?_⟩
  obtain ⟨hrow, hi⟩ := decodeWord_inv h
  rw [← hi, encode_withFieldsOf_shift hs hrow]

/-! ### O3 -/

/-- Settles O3: words that differ in the y field only have the same other fields, which are all that a shift is
read from; a word of any other instruction is the encoding of that instruction. -/
theorem onlyTheShiftsIgnoreAField : Obligations.OnlyTheShiftsIgnoreAField := by
  refine ⟨fun w w' hrow heq => ?_, fun w w' i h h' => ?_⟩
  · have hX : fieldX w = fieldX w' := by
      rw [and_FF0F, and_FF0F] at heq
      rw [← fieldX_formatR (fieldD1 w) (fieldX w) 0 (fieldN w), heq, fieldX_formatR]
    have hand : w &&& 0xF00F = w' &&& 0xF00F := by
      rw [← and_FF0F_and_F00F, heq, and_FF0F_and_F00F]
    rcases hrow with hrow | hrow
    · rw [decodeWord_of_row (.shr 0) hrow, decodeWord_of_row (.shr 0) (hand ▸ hrow), withFieldsOf, withFieldsOf, hX]
    · rw [decodeWord_of_row (.shl 0) hrow, decodeWord_of_row (.shl 0) (hand ▸ hrow), withFieldsOf, withFieldsOf, hX]
  · by_cases hs : ∃ x, i = .shr x ∨ i = .shl x
    · exact .inr hs
    · have hs : ∀ x, i ≠ .shr x ∧ i ≠ .shl x := by simpa only [not_exists, not_or] using hs
      exact .inl ((encode_of_decodeWord h hs).symm.trans (encode_of_decodeWord h' hs))

/-! ### O4 -/

/-- A word that lies in two rows has the same bits under both masks, so the rows agree there. -/
theorem rows_agree_of_and {w m v m' v' : Word} (h : w &&& m = v) (h' : w &&& m' = v') : v &&& m' = v' &&& m := by
  rw [← h, ← h', BitVec.and_assoc, BitVec.and_assoc, BitVec.and_comm m]

/-- Every two rows of the map differ in a bit that both of their masks keep. -/
theorem opcodeMap_pairwise : opcodeMap.Pairwise fun a b => a.2 &&& b.1 ≠ b.2 &&& a.1 := by decide

/-- One instruction of each row of R80, in its order. -/
def oneOfEachRow : List Instr :=
  [.cls, .ret, .jp 0, .call 0, .seImm 0 0, .sneImm 0 0, .seReg 0 0, .sneReg 0 0, .ldImm 0 0, .addImm 0 0,
   .ldReg 0 0, .orReg 0 0, .andReg 0 0, .xorReg 0 0, .addReg 0 0, .sub 0 0, .shr 0, .subn 0 0, .shl 0,
   .ldI 0, .jpV0 0, .rnd 0 0, .drw 0 0 0, .skp 0, .sknp 0,
   .ldVxDt 0, .ldVxK 0, .ldDtVx 0, .ldStVx 0, .addI 0, .ldF 0, .ldB 0, .stRegs 0, .ldRegs 0]

theorem opcodeMap_eq_map : opcodeMap = oneOfEachRow.map fun i => (i.opMask, i.opMatch) := rfl

/-- Every instruction has its row in the map. -/
theorem mem_opcodeMap (i : Instr) : (i.opMask, i.opMatch) ∈ opcodeMap := by
  cases i <;> simp [opcodeMap, Instr.opMask, Instr.opMatch]

theorem opMask_withFieldsOf (w : Word) (i : Instr) : (withFieldsOf w i).opMask = i.opMask := by
  cases i <;> rfl

theorem opMatch_withFieldsOf (w : Word) (i : Instr) : (withFieldsOf w i).opMatch = i.opMatch := by
  cases i <;> rfl

/-- Settles O4: two rows differ under both masks, and the two directions are those of the decoder read as the
rows of the map. -/
theorem wordSelectsItsRowOfTheOpcodeMap : Obligations.WordSelectsItsRowOfTheOpcodeMap := by
  refine ⟨rfl, opcodeMap_pairwise.imp fun hne w ⟨ha, hb⟩ => hne (rows_agree_of_and ha hb),
    fun w i h => ⟨mem_opcodeMap i, (decodeWord_inv h).1⟩, fun row hmem w hrow => ?_⟩
  rw [opcodeMap_eq_map] at hmem
  obtain ⟨i, -, rfl⟩ := List.mem_map.mp hmem
  exact ⟨_, decodeWord_of_row i hrow, opMask_withFieldsOf w i, opMatch_withFieldsOf w i⟩

/-! ### O5 -/

theorem decode0_error_iff {w : Word} : (∃ e, decode0 w = .error e) ↔ w ≠ 0x00E0 ∧ w ≠ 0x00EE := by
  unfold decode0
  split
  · simp_all
  · split <;> simp_all

theorem decode8_error_iff {w : Word} :
    (∃ e, decode8 w = .error e) ↔ (fieldN w).toNat ∈ [0x8, 0x9, 0xA, 0xB, 0xC, 0xD, 0xF] := by
  unfold decode8
  split
  case h_10 =>
    refine iff_of_true ⟨_, rfl⟩ ?_
    generalize fieldN w = n at *
    revert n
    decide
  all_goals next hn => simp [hn]

theorem decodeE_error_iff {w : Word} :
    (∃ e, decodeE w = .error e) ↔ (fieldKk w).toNat ∉ [0x9E, 0xA1] := by
  unfold decodeE
  split
  case h_3 =>
    refine iff_of_true ⟨_, rfl⟩ ?_
    generalize fieldKk w = kk at *
    revert kk
    decide
  all_goals next hk => simp [hk]

theorem decodeF_error_iff {w : Word} :
    (∃ e, decodeF w = .error e) ↔
      (fieldKk w).toNat ∉ [0x07, 0x0A, 0x15, 0x18, 0x1E, 0x29, 0x33, 0x55, 0x65] := by
  unfold decodeF
  split
  case h_10 =>
    refine iff_of_true ⟨_, rfl⟩ ?_
    generalize fieldKk w = kk at *
    revert kk
    decide
  all_goals next hk => simp [hk]

/-- Every refusal of the decoder is by the name InvalidOpcode (R86). -/
theorem eq_invalidOpcode_of_decodeWord {w : Word} {e : DecodeError} (h : decodeWord w = .error e) :
    e = .invalidOpcode w := by
  unfold decodeWord decode0 decode8 decodeE decodeF at h
  repeat' split at h
  all_goals cases h
  all_goals rfl

/-- Settles O5: the major opcode tells the family, and each family refuses its own class. -/
theorem invalidWordsAreTheSixClasses : Obligations.InvalidWordsAreTheSixClasses := by
  refine ⟨fun w e => eq_invalidOpcode_of_decodeWord, fun w => ?_⟩
  rw [← fieldD1_toNat, ← fieldN_toNat, ← fieldKk_toNat]
  unfold decodeWord
  split
  case h_1 hd => simp [hd, decode0_error_iff]
  case h_6 hd | h_10 hd =>
    split
    · next hn => simp [hd, hn]
    · next hn =>
      have hn : (fieldN w).toNat ≠ 0 := fun h => hn (BitVec.eq_of_toNat_eq h)
      simp [hd, hn]
  case h_9 hd => simp [hd, decode8_error_iff]
  case h_15 hd => simp [hd, decodeE_error_iff]
  case h_16 =>
    have hd : fieldD1 w = 0xF#4 := by
      generalize fieldD1 w = d at *
      revert d
      decide
    simp [hd, decodeF_error_iff]
  all_goals next hd => simp [hd]

/-! ### O7 -/

/-- Settles O7: each word is decoded by evaluation. -/
theorem writtenOutWordsDecode : Obligations.WrittenOutWordsDecode :=
  ⟨rfl, rfl, rfl, rfl, rfl, rfl, rfl, rfl⟩

end Sys2Proof.Machine

/-! # PROOFS. What an instruction can change (spec/10_state.md R23 to R32) -/

namespace Sys2Proof.Machine

variable {i : Instr} {s t : State}

/-! ### The kinds of effect -/

/-- What an instruction that raises no fault changes, kind by kind, and for the parts that R27 to R32 give to
few instructions, which ones these are. -/
inductive Effect (i : Instr) (s : State) : State → Prop where
  | regs (v : Vector Byte 16) : Effect i s { s with v := v }
  | jump (p : Word) : Effect i s { s with pc := p }
  | ret (p : Word) (k : Fin 17) (hi : i = .ret) : Effect i s { s with pc := p, sp := k }
  | call (p : Word) (k : Fin 17) (st : Vector Word 16) (hi : ∃ nnn, i = .call nnn) :
    Effect i s { s with pc := p, sp := k, stack := st }
  | index (w : Word) (hi : (∃ nnn, i = .ldI nnn) ∨ (∃ x, i = .addI x) ∨ ∃ x, i = .ldF x) :
    Effect i s { s with i := w }
  | delay (b : Byte) (hi : ∃ x, i = .ldDtVx x) : Effect i s { s with dt := b }
  | sound (b : Byte) (hi : ∃ x, i = .ldStVx x) : Effect i s { s with st := b }
  | draw (v : Vector Byte 16) (d : Display) (hi : i = .cls ∨ ∃ x y n, i = .drw x y n) :
    Effect i s { s with v := v, disp := d }
  | store (a : Nat) (bs : List Byte) (hin : a + bs.length ≤ 4096)
    (hi : (∃ x, i = .ldB x) ∨ ∃ x, i = .stRegs x) : Effect i s (s.store a bs)

theorem effect_skipIf (c : Bool) : Effect i s (s.skipIf c) := by
  rw [State.skipIf_eq]
  exact .jump _

theorem effect_of_endsIn (h : endsIn i s t) : Effect i s t := by
  cases i
  case cls => obtain rfl := h; exact .draw s.v _ (.inl rfl)
  case ret => obtain ⟨_, rfl⟩ := h; exact .ret _ _ rfl
  case call => obtain ⟨_, rfl⟩ := h; exact .call _ _ _ ⟨_, rfl⟩
  case jp | jpV0 => obtain rfl := h; exact .jump _
  case seImm | sneImm | seReg | sneReg => obtain rfl := h; exact effect_skipIf _
  case skp | sknp => obtain ⟨_, rfl⟩ := h; exact effect_skipIf _
  case ldI => obtain rfl := h; exact .index _ (.inl ⟨_, rfl⟩)
  case addI => obtain rfl := h; exact .index _ (.inr (.inl ⟨_, rfl⟩))
  case ldF => obtain rfl := h; exact .index _ (.inr (.inr ⟨_, rfl⟩))
  case ldDtVx => obtain rfl := h; exact .delay _ ⟨_, rfl⟩
  case ldStVx => obtain rfl := h; exact .sound _ ⟨_, rfl⟩
  case drw => obtain ⟨_, rfl⟩ := h; exact .draw _ _ (.inr ⟨_, _, _, rfl⟩)
  case ldB => obtain ⟨hin, rfl⟩ := h; exact .store _ _ hin (.inl ⟨_, rfl⟩)
  case stRegs =>
    obtain ⟨hin, rfl⟩ := h
    exact .store _ _ (by rw [s.regValues_length]; omega) (.inr ⟨_, rfl⟩)
  case ldRegs =>
    obtain ⟨_, rfl⟩ := h
    rw [State.setRegs_frame]
    exact .regs _
  case ldVxK =>
    rcases h with ⟨_, _, rfl⟩ | ⟨_, rfl⟩
    · exact .regs _
    · exact .jump _
  all_goals obtain rfl := h; exact .regs _

/-- An instruction ends with a fault record added, or with an effect of one kind. -/
theorem exec_effect (h : exec i s = .next t) : (∃ c, t = s.raiseIn c i) ∨ Effect i s t :=
  (exec_cases h).imp (fun ⟨c, _, ht⟩ => ⟨c, ht⟩) effect_of_endsIn

/-- What differs after an instruction and does not hang on the fault record is due to its effect. -/
theorem effect_of_changed {α : Type} (f : State → α) (hraise : ∀ c, f (s.raiseIn c i) = f s)
    (h : exec i s = .next t) (hne : f t ≠ f s) : Effect i s t := by
  rcases exec_effect h with ⟨c, rfl⟩ | h
  · exact absurd (hraise c) hne
  · exact h

/-! ### What no instruction changes -/

theorem Effect.fault_eq (h : Effect i s t) : t.fault = s.fault := by cases h <;> rfl

theorem exec_font (h : exec i s = .next t) : t.font = s.font := by
  by_contra hne
  cases effect_of_changed State.font (fun _ => rfl) h hne <;> exact hne rfl

theorem exec_inp (h : exec i s = .next t) : t.inp = s.inp := by
  by_contra hne
  cases effect_of_changed State.inp (fun _ => rfl) h hne <;> exact hne rfl

theorem exec_key (h : exec i s = .next t) : t.key = s.key := by
  by_contra hne
  cases effect_of_changed State.key (fun _ => rfl) h hne <;> exact hne rfl

/-! ### What only the listed instructions change -/

theorem exec_index (h : exec i s = .next t) (hne : t.i ≠ s.i) :
    (∃ nnn, i = .ldI nnn) ∨ (∃ x, i = .addI x) ∨ ∃ x, i = .ldF x := by
  cases effect_of_changed State.i (fun _ => rfl) h hne
  case index hi => exact hi
  all_goals exact absurd rfl hne

theorem exec_stack (h : exec i s = .next t) (hne : (t.sp, t.stack) ≠ (s.sp, s.stack)) :
    i = .ret ∨ ∃ nnn, i = .call nnn := by
  cases effect_of_changed (fun u => (u.sp, u.stack)) (fun _ => rfl) h hne
  case ret hi => exact .inl hi
  case call hi => exact .inr hi
  all_goals exact absurd rfl hne

theorem exec_dt (h : exec i s = .next t) (hne : t.dt ≠ s.dt) : ∃ x, i = .ldDtVx x := by
  cases effect_of_changed State.dt (fun _ => rfl) h hne
  case delay hi => exact hi
  all_goals exact absurd rfl hne

theorem exec_st (h : exec i s = .next t) (hne : t.st ≠ s.st) : ∃ x, i = .ldStVx x := by
  cases effect_of_changed State.st (fun _ => rfl) h hne
  case sound hi => exact hi
  all_goals exact absurd rfl hne

theorem exec_disp (h : exec i s = .next t) (hne : t.disp ≠ s.disp) : i = .cls ∨ ∃ x y n, i = .drw x y n := by
  cases effect_of_changed State.disp (fun _ => rfl) h hne
  case draw hi => exact hi
  all_goals exact absurd rfl hne

theorem exec_mem (h : exec i s = .next t) (hne : t.mem ≠ s.mem) : (∃ x, i = .ldB x) ∨ ∃ x, i = .stRegs x := by
  cases effect_of_changed State.mem (fun _ => rfl) h hne
  case store hi => exact hi
  all_goals exact absurd rfl hne

/-! ### What each event changes -/

/-- A TICK that answers `t` in terms of `t`: nothing, a fetch fault, a decode fault, or one instruction. -/
theorem State.tick_inv {rnd : Byte} (h : s.tick rnd = .next t) :
    (s.fault ≠ none ∧ t = s) ∨
    (s.fault = none ∧ 4096 ≤ s.pc.toNat + 1 ∧ t = { s with
      fault := some { cause := .memoryOutOfBounds s.pc.toNat, opcode := none, addr := some s.pc }
      inp.rnd := rnd }) ∨
    (s.fault = none ∧ s.pc.toNat + 1 < 4096 ∧ t = { s with
      pc := s.pc + 2
      fault := some { cause := .invalidOpcode s.wordAtPc, opcode := some s.wordAtPc, addr := some s.pc }
      inp.rnd := rnd }) ∨
    ∃ i, s.fault = none ∧ s.pc.toNat + 1 < 4096 ∧ decodeWord s.wordAtPc = .ok i ∧
      exec i (s.fetched rnd) = .next t := by
  have answers {u : State} (hu : s.tick rnd = .next u) : t = u := Host.Outcome.next.inj (h.symm.trans hu)
  rcases s.tick_cases rnd with ⟨hf, hu⟩ | ⟨hf, hp, hu⟩ | ⟨hf, hp, hu⟩ | ⟨i, hf, hp, hd, hu⟩
  · exact .inl ⟨hf, answers hu⟩
  · exact .inr (.inl ⟨hf, hp, answers hu⟩)
  · exact .inr (.inr (.inl ⟨hf, hp, answers hu⟩))
  · exact .inr (.inr (.inr ⟨i, hf, hp, hd, hu.symm.trans h⟩))

theorem tick_key {rnd : Byte} (h : s.tick rnd = .next t) : t.key = s.key := by
  rcases State.tick_inv h with ⟨-, rfl⟩ | ⟨-, -, rfl⟩ | ⟨-, -, rfl⟩ | ⟨i, -, -, -, h⟩
  · rfl
  · rfl
  · rfl
  · exact (exec_key h :)

theorem tick_font {rnd : Byte} (h : s.tick rnd = .next t) : t.font = s.font := by
  rcases State.tick_inv h with ⟨-, rfl⟩ | ⟨-, -, rfl⟩ | ⟨-, -, rfl⟩ | ⟨i, -, -, -, h⟩
  · rfl
  · rfl
  · rfl
  · exact (exec_font h :)

theorem State.tickTimers_frame (s : State) :
    s.tickTimers = { s with dt := s.tickTimers.dt, st := s.tickTimers.st } := by
  unfold State.tickTimers
  split <;> rfl

theorem State.keypress_frame (s : State) (k : Key) (pressed : Bool) :
    s.keypress k pressed = { s with key := (s.keypress k pressed).key } := by
  unfold State.keypress
  split <;> rfl

/-- What a LOAD leaves: the state as it was, a fault record added, or the image stored inside memory. -/
theorem State.load_cases (s : State) (bytes : List Byte) :
    (s.fault ≠ none ∧ s.load bytes = s) ∨
    (s.fault = none ∧ 4096 < 0x200 + bytes.length ∧
      s.load bytes = s.raise (.loadOutOfBounds bytes.length) none none) ∨
    (s.fault = none ∧ 0x200 + bytes.length ≤ 4096 ∧ s.load bytes = s.store 0x200 bytes) := by
  by_cases h : s.fault = none
  · by_cases hl : 0x200 + bytes.length ≤ 4096
    · exact .inr (.inr ⟨h, hl, State.load_fits h hl⟩)
    · exact .inr (.inl ⟨h, by omega, State.load_too_long h (by omega)⟩)
  · exact .inl ⟨h, by rw [State.load, if_pos (State.halted_eq_true h)]⟩

theorem State.load_frame (s : State) (bytes : List Byte) :
    s.load bytes = { s with mem := (s.load bytes).mem, fault := (s.load bytes).fault } := by
  rcases s.load_cases bytes with ⟨-, h⟩ | ⟨-, -, h⟩ | ⟨-, -, h⟩ <;> rw [h] <;> rfl

theorem raiseEvent_key {e : HostEvent} (h : s.raiseEvent e = .next t) (hne : t.key ≠ s.key) :
    (∃ k pressed, e = .keypress k pressed) ∨ e = .reset := by
  cases e
  case tick => exact absurd (tick_key h) hne
  case tickTimers => cases h; exact absurd (congrArg State.key s.tickTimers_frame) hne
  case keypress k pressed => exact .inl ⟨k, pressed, rfl⟩
  case load bytes => cases h; exact absurd (congrArg State.key (s.load_frame bytes)) hne
  case reset => exact .inr rfl
  case getDisplay => cases h; exact absurd rfl hne

theorem raiseEvent_timers {e : HostEvent} (h : s.raiseEvent e = .next t)
    (hne : (t.dt, t.st) ≠ (s.dt, s.st)) : (∃ rnd, e = .tick rnd) ∨ e = .tickTimers ∨ e = .reset := by
  cases e
  case tick rnd => exact .inl ⟨rnd, rfl⟩
  case tickTimers => exact .inr (.inl rfl)
  case keypress k pressed =>
    cases h
    exact absurd (congrArg (fun u : State => (u.dt, u.st)) (s.keypress_frame k pressed)) hne
  case load bytes =>
    cases h
    exact absurd (congrArg (fun u : State => (u.dt, u.st)) (s.load_frame bytes)) hne
  case reset => exact .inr (.inr rfl)
  case getDisplay => cases h; exact absurd rfl hne

theorem raiseEvent_disp {e : HostEvent} (h : s.raiseEvent e = .next t) (hne : t.disp ≠ s.disp) :
    (∃ rnd, e = .tick rnd) ∨ e = .reset := by
  cases e
  case tick rnd => exact .inl ⟨rnd, rfl⟩
  case tickTimers => cases h; exact absurd (congrArg State.disp s.tickTimers_frame) hne
  case keypress k pressed => cases h; exact absurd (congrArg State.disp (s.keypress_frame k pressed)) hne
  case load bytes => cases h; exact absurd (congrArg State.disp (s.load_frame bytes)) hne
  case reset => exact .inr rfl
  case getDisplay => cases h; exact absurd rfl hne

theorem raiseEvent_mem {e : HostEvent} (h : s.raiseEvent e = .next t) (hne : t.mem ≠ s.mem) :
    (∃ rnd, e = .tick rnd) ∨ (∃ bytes, e = .load bytes) ∨ e = .reset := by
  cases e
  case tick rnd => exact .inl ⟨rnd, rfl⟩
  case tickTimers => cases h; exact absurd (congrArg State.mem s.tickTimers_frame) hne
  case keypress k pressed => cases h; exact absurd (congrArg State.mem (s.keypress_frame k pressed)) hne
  case load bytes => exact .inr (.inl ⟨bytes, rfl⟩)
  case reset => exact .inr (.inr rfl)
  case getDisplay => cases h; exact absurd rfl hne

theorem raiseEvent_font {e : HostEvent} (h : s.raiseEvent e = .next t) : t.font = s.font := by
  cases e
  case tick => exact tick_font h
  case tickTimers => cases h; exact (congrArg State.font s.tickTimers_frame :)
  case keypress k pressed => cases h; exact (congrArg State.font (s.keypress_frame k pressed) :)
  case load bytes => cases h; exact (congrArg State.font (s.load_frame bytes) :)
  case reset => cases h; rfl
  case getDisplay => cases h; rfl

/-! ### O16, O17, O18, O22 -/

/-- Settles O16: the kinds of effect that change `I`, and those that change the stack or its pointer, name their
instructions. -/
theorem indexAndStackAreWrittenOnlyAsListed : Obligations.IndexAndStackAreWrittenOnlyAsListed :=
  fun _ _ _ h => ⟨exec_index h, fun hne => exec_stack h (by rwa [ne_eq, Prod.mk.injEq, not_and_or])⟩

/-- Settles O17: of the instructions only those that the effects on DT and ST name change them, and none the
latches; the events follow case by case. -/
theorem timersAndKeysAreWrittenOnlyAsListed : Obligations.TimersAndKeysAreWrittenOnlyAsListed :=
  ⟨fun _ _ _ h => ⟨exec_dt h, exec_st h, exec_key h⟩,
    fun _ _ _ h => ⟨fun hne => raiseEvent_timers h (by rwa [ne_eq, Prod.mk.injEq, not_and_or]), raiseEvent_key h⟩⟩

/-- Settles O18: the effects on the framebuffer and on memory name their instructions; the events follow case by
case. -/
theorem displayAndMemoryAreWrittenOnlyAsListed : Obligations.DisplayAndMemoryAreWrittenOnlyAsListed :=
  ⟨fun _ _ _ h => ⟨exec_disp h, exec_mem h⟩, fun _ _ _ h => ⟨raiseEvent_disp h, raiseEvent_mem h⟩⟩

/-- Settles O22: a step is one event, and no event changes the FONT. -/
theorem fontIsConstant : Obligations.FontIsConstant := fun _ _ h =>
  let ⟨_, _, he⟩ := step_event h
  (raiseEvent_font he :)

end Sys2Proof.Machine

/-! # PROOFS. The invariants along a step (spec/10_state.md R26, spec/20_memory.md section 1) -/

namespace Sys2Proof.Machine

variable {i : Instr} {s t : State}

/-! ### O19 -/

theorem pcBounded_resetWith (font : Font) (inp : Inputs) : (State.resetWith font inp).pcBounded :=
  ⟨(by decide : (0x0200 : Word).toNat ≤ 0x10FE), fun _ _ h => absurd h (Nat.not_lt_zero _)⟩

/-- Settles O19: no cell differs from its reset contents, `pc` is 0x200 and no stack entry is valid. -/
theorem resetMeetsTheInvariants : Obligations.ResetMeetsTheInvariants :=
  have inv font inp := And.intro (Memory.wf_nil font) (pcBounded_resetWith font inp)
  ⟨inv, inv _ _⟩

/-! ### O20 -/

/-- A store inside memory keeps the canonical form. -/
theorem State.memoryCanonical_store (hs : s.memoryCanonical) {a : Nat} {bs : List Byte}
    (hin : a + bs.length ≤ 4096) : (s.store a bs).memoryCanonical :=
  Memory.wf_putAll s.font hs hin

theorem exec_memoryCanonical (hs : s.memoryCanonical) (h : exec i s = .next t) : t.memoryCanonical := by
  rcases exec_effect h with ⟨c, rfl⟩ | h
  · exact hs
  · cases h
    case store hin hi => exact State.memoryCanonical_store hs hin
    all_goals exact hs

theorem tick_memoryCanonical (hs : s.memoryCanonical) {rnd : Byte} (h : s.tick rnd = .next t) :
    t.memoryCanonical := by
  rcases State.tick_inv h with ⟨-, rfl⟩ | ⟨-, -, rfl⟩ | ⟨-, -, rfl⟩ | ⟨i, -, -, -, h⟩
  · exact hs
  · exact hs
  · exact hs
  · exact exec_memoryCanonical (s := s.fetched rnd) hs h

theorem load_memoryCanonical (hs : s.memoryCanonical) (bytes : List Byte) : (s.load bytes).memoryCanonical := by
  rcases s.load_cases bytes with ⟨-, h⟩ | ⟨-, -, h⟩ | ⟨-, hin, h⟩ <;> rw [h]
  · exact hs
  · exact hs
  · exact State.memoryCanonical_store hs hin

theorem raiseEvent_memoryCanonical (hs : s.memoryCanonical) {e : HostEvent} (h : s.raiseEvent e = .next t) :
    t.memoryCanonical := by
  cases e
  case tick => exact tick_memoryCanonical hs h
  case load bytes => cases h; exact load_memoryCanonical hs bytes
  case reset => cases h; exact Memory.wf_nil s.font
  case tickTimers => cases h; rw [s.tickTimers_frame]; exact hs
  case keypress k pressed => cases h; rw [s.keypress_frame]; exact hs
  case getDisplay => cases h; exact hs

/-- Settles O20: a step is one event, and every event writes inside memory, cell by cell in canonical form. -/
theorem stepKeepsMemoryCanonical : Obligations.StepKeepsMemoryCanonical := fun s _ hs h =>
  let ⟨_, inp, he⟩ := step_event h
  raiseEvent_memoryCanonical (s := { s with inp := inp }) hs he

end Sys2Proof.Machine

/-! # PROOFS. Faults, registers and `pc`, instruction by instruction (spec/10_state.md R23, R25) -/

namespace Sys2Proof.Machine

variable {i : Instr} {s t : State}

/-! ### O13 -/

/-- Every instruction answers a next state: none stops the model and none is refused. -/
theorem exec_next (i : Instr) (s : State) : ∃ t, exec i s = .next t := by
  cases i
  case ret | call | drw | ldB | stRegs | ldRegs | skp | sknp => exact finish_next s _ _
  case ldVxK x =>
    cases h : s.lowestKeyDown with
    | none => exact ⟨_, exec_ldVxK_none s x h⟩
    | some k => exact ⟨_, exec_ldVxK_some s x h⟩
  all_goals exact ⟨_, rfl⟩

/-- Each code number of R186 belongs to one cause. -/
theorem fault_codes (f : FaultRecord) :
    ((∃ w, f.cause = .invalidOpcode w) ↔ f.code = 1) ∧
    ((∃ a, f.cause = .memoryOutOfBounds a) ↔ f.code = 2) ∧
    (f.cause = .stackOverflow ↔ f.code = 3) ∧ (f.cause = .stackUnderflow ↔ f.code = 4) ∧
    ((∃ k, f.cause = .keyIndexOutOfRange k) ↔ f.code = 5) ∧
    ((∃ len, f.cause = .loadOutOfBounds len) ↔ f.code = 6) := by
  obtain ⟨c, o, a⟩ := f
  cases c <;> simp [FaultRecord.code, FaultCause.code]

/-- Settles O13: `exec_cases` gives the fault with its condition, or the effect with the negation of it. -/
theorem instructionsFaultExactlyOnTheirConditions : Obligations.InstructionsFaultExactlyOnTheirConditions := by
  refine ⟨fault_codes, fun i s hs => ?_⟩
  obtain ⟨t, ht⟩ := exec_next i s
  refine ⟨t, ht, ?_⟩
  rcases exec_cases ht with ⟨c, hc, rfl⟩ | hend
  case inl =>
    show some c = _
    cases i
    case ret | call | ldB | stRegs | ldRegs | skp | sknp =>
      obtain ⟨hcond, rfl⟩ := hc
      exact (if_pos hcond).symm
    case drw =>
      obtain ⟨hn, hcond, rfl⟩ := hc
      exact (if_pos ⟨by omega, Nat.le_sub_one_of_lt hcond⟩).symm
    all_goals exact hc.elim
  case inr =>
    rw [(effect_of_endsIn hend).fault_eq, hs]
    show none = _
    cases i
    case ret | call | skp | sknp =>
      obtain ⟨hcond, -⟩ := hend
      exact (if_neg (by omega)).symm
    case ldB | stRegs | ldRegs | drw =>
      obtain ⟨hcond, -⟩ := hend
      simp only [State.dataAddr] at hcond
      exact (if_neg (by omega)).symm
    all_goals rfl

/-! ### O14 -/

theorem eq_of_reg_setReg_ne {x r : Reg} {b : Byte} (h : (s.setReg x b).reg r ≠ s.reg r) : r = x := by
  by_contra hne
  exact h (s.reg_setReg_ne hne b)

theorem eq_of_reg_resultThenFlag_ne {x r : Reg} {b f : Byte} (h : (s.resultThenFlag x b f).reg r ≠ s.reg r) :
    r = x ∨ r = 15 := by
  by_contra hne
  rw [not_or] at hne
  exact h (by rw [s.resultThenFlag_reg, if_neg hne.2, if_neg hne.1])

theorem eq_of_reg_flagThenResult_ne {x r : Reg} {b f : Byte} (h : (s.flagThenResult x b f).reg r ≠ s.reg r) :
    r = x ∨ r = 15 := by
  by_contra hne
  rw [not_or] at hne
  exact h (by rw [s.flagThenResult_reg, if_neg hne.1, if_neg hne.2])

/-- Settles O14: a fault writes no register, and of the effects each one that writes registers names them. -/
theorem registersAreWrittenOnlyAsListed : Obligations.RegistersAreWrittenOnlyAsListed := by
  intro i s t r h hne
  rcases exec_cases h with ⟨c, -, rfl⟩ | hend
  case inl => exact absurd rfl hne
  cases i
  case ldImm | addImm | ldReg | orReg | andReg | xorReg | rnd | ldVxDt =>
    obtain rfl := hend
    exact eq_of_reg_setReg_ne hne
  case addReg | sub | subn =>
    obtain rfl := hend
    exact eq_of_reg_resultThenFlag_ne hne
  case shr | shl =>
    obtain rfl := hend
    exact eq_of_reg_flagThenResult_ne hne
  case drw =>
    obtain ⟨-, rfl⟩ := hend
    by_contra hr
    exact hne (by rw [s.drawSprite_reg, if_neg hr])
  case ldVxK =>
    rcases hend with ⟨k, hk, rfl⟩ | ⟨-, rfl⟩
    · exact ⟨eq_of_reg_setReg_ne hne, k, (s.lowestKeyDown_some.mp hk).1⟩
    · exact absurd rfl hne
  case ldRegs =>
    obtain ⟨-, rfl⟩ := hend
    by_contra hr
    exact hne (by rw [s.setRegs_regsUpTo _ fun j => s.byteAt (s.dataAddr + j), if_neg hr])
  case seImm | sneImm | seReg | sneReg =>
    obtain rfl := hend
    exact hne (State.reg_of_v (s.skipIf_v _) r)
  case skp | sknp =>
    obtain ⟨_, rfl⟩ := hend
    exact hne (State.reg_of_v (s.skipIf_v _) r)
  case ret | call | ldB | stRegs =>
    obtain ⟨_, rfl⟩ := hend
    exact hne rfl
  all_goals
    obtain rfl := hend
    exact hne rfl

/-! ### O15 -/

/-- Settles O15: a fault is excluded, and each effect leaves `pc` as its row of R25 says. -/
theorem pcAfterEachInstruction : Obligations.PcAfterEachInstruction := by
  intro i s t hs h ht
  rcases exec_cases h with ⟨c, -, rfl⟩ | hend
  case inl => cases ht
  cases i
  case ret =>
    obtain ⟨hsp, rfl⟩ := hend
    exact ⟨s.sp.val - 1, by omega, by omega, rfl⟩
  case call =>
    obtain ⟨hsp, rfl⟩ := hend
    exact ⟨rfl, hsp, by simp⟩
  case seImm | sneImm | seReg | sneReg =>
    obtain rfl := hend
    simp
  case jpV0 nnn =>
    intro hn
    obtain rfl := hend
    have hb := (s.reg 0).isLt
    rw [s.setPc_pc, BitVec.toNat_add, zext16_toNat]
    omega
  case skp | sknp =>
    obtain ⟨hk, rfl⟩ := hend
    exact ⟨hk, by simp⟩
  case ldVxK =>
    rcases hend with ⟨k, hk, rfl⟩ | ⟨hk, rfl⟩
    · have hdown := (s.lowestKeyDown_some.mp hk).1
      exact ⟨fun _ => rfl, fun hup => absurd hdown (by simp [hup k])⟩
    · have hup := s.lowestKeyDown_none.mp hk
      exact ⟨fun ⟨k, hdown⟩ => absurd hdown (by simp [hup k]), fun _ => rfl⟩
  case ldRegs =>
    obtain ⟨-, rfl⟩ := hend
    exact (congrArg State.pc (s.setRegs_frame _ _) :)
  case drw | ldB | stRegs =>
    obtain ⟨-, rfl⟩ := hend
    rfl
  all_goals
    obtain rfl := hend
    rfl

/-! ### O21 -/

/-- The bound that R26 derives, one instruction at a time, with `pc` past an instruction at 0xFFE or below. -/
theorem exec_pc_le (hs : s.pcBounded) (hf : s.fault = none) (hlo : 2 ≤ s.pc.toNat) (hhi : s.pc.toNat ≤ 0x1000)
    (hi : i.wellFormed = true) (h : exec i s = .next t) : t.pc.toNat ≤ 0x10FE := by
  have hstay {u : State} (hu : u.pc = s.pc) : u.pc.toNat ≤ 0x10FE := by rw [hu]; omega
  have hskip : (s.pc + 2).toNat ≤ 0x10FE := by rw [BitVec.toNat_add]; show (_ + 2) % _ ≤ _; omega
  have hone {c : Prop} [Decidable c] {p : Word} (hp : p = if c then s.pc + 2 else s.pc) : p.toNat ≤ 0x10FE := by
    rw [hp]
    split
    · exact hskip
    · omega
  have haddr {nnn : Word} (hw : addressFits nnn = true) : nnn.toNat < 4096 := of_decide_eq_true hw
  by_cases ht : t.fault = none
  case neg =>
    rcases exec_effect h with ⟨c, rfl⟩ | heff
    · exact hstay rfl
    · exact absurd (heff.fault_eq.trans hf) ht
  have hpc := pcAfterEachInstruction i s t hf h ht
  cases i
  case ret =>
    obtain ⟨j, hj, hsp, hpc⟩ := hpc
    rw [hpc]
    exact (hs.2 j hj (by omega)).trans (by decide)
  case jp =>
    rw [hpc]
    exact (haddr hi).le.trans (by decide)
  case call =>
    rw [hpc.1]
    exact (haddr hi).le.trans (by decide)
  case jpV0 nnn =>
    have hn := haddr hi
    have hb := (s.reg 0).isLt
    rw [hpc hn]
    omega
  case seImm | sneImm | seReg | sneReg => exact hone hpc
  case skp | sknp => exact hone hpc.2
  case ldVxK =>
    by_cases hk : ∃ k : Key, s.key[k.val] = true
    · exact hstay (hpc.1 hk)
    · rw [hpc.2 (by simpa using hk), BitVec.toNat_sub]
      show (65536 - 2 + _) % 65536 ≤ _
      omega
  all_goals exact hstay hpc

/-- A call pushes an address of 0x1000 or below, and nothing else puts an entry in use (R28, R113). -/
theorem exec_stack_le (hs : s.pcBounded) (hhi : s.pc.toNat ≤ 0x1000) (h : exec i s = .next t) :
    ∀ j (hj : j < 16), j < t.sp.val → (t.stack[j]'hj).toNat ≤ 0x1000 := by
  by_cases hsame : (t.sp, t.stack) = (s.sp, s.stack)
  case pos =>
    obtain ⟨hsp, hst⟩ := Prod.mk.inj hsame
    rw [hsp, hst]
    exact hs.2
  rcases exec_cases h with ⟨c, -, rfl⟩ | hend
  case inl => exact absurd rfl hsame
  intro j hj hlt
  rcases exec_stack h hsame with rfl | ⟨nnn, rfl⟩
  · obtain ⟨_, rfl⟩ := hend
    exact hs.2 j hj (Nat.lt_of_lt_of_le hlt (Nat.sub_le _ _))
  · obtain ⟨hsp, rfl⟩ := hend
    show ((s.stack.set s.sp.val s.pc hsp)[j]).toNat ≤ _
    rw [Vector.getElem_set]
    split
    · exact hhi
    · next hne => exact hs.2 j hj (by simp only at hlt; omega)

/-- The address after an instruction that was fetched (R76). -/
theorem pc_add_two_toNat (h : s.pc.toNat + 1 < 4096) : (s.pc + 2).toNat = s.pc.toNat + 2 := by
  rw [BitVec.toNat_add]
  exact Nat.mod_eq_of_lt (show s.pc.toNat + 2 < 65536 by omega)

theorem tick_pcBounded (hs : s.pcBounded) {rnd : Byte} (h : s.tick rnd = .next t) : t.pcBounded := by
  rcases State.tick_inv h with ⟨-, rfl⟩ | ⟨-, -, rfl⟩ | ⟨-, hp, rfl⟩ | ⟨i, hf, hp, hd, h⟩
  · exact hs
  · exact hs
  · refine ⟨?_, hs.2⟩
    show (s.pc + 2).toNat ≤ _
    rw [pc_add_two_toNat hp]
    omega
  · have hpc : (s.fetched rnd).pc.toNat = s.pc.toNat + 2 := pc_add_two_toNat hp
    have hfetched : (s.fetched rnd).pcBounded := ⟨by omega, hs.2⟩
    exact ⟨exec_pc_le hfetched hf (by omega) (by omega) (wellFormed_of_decodeWord hd) h,
      exec_stack_le hfetched (by omega) h⟩

theorem raiseEvent_pcBounded (hs : s.pcBounded) {e : HostEvent} (h : s.raiseEvent e = .next t) :
    t.pcBounded := by
  cases e
  case tick => exact tick_pcBounded hs h
  case reset => cases h; exact pcBounded_resetWith s.font s.inp
  case tickTimers => cases h; rw [s.tickTimers_frame]; exact hs
  case keypress k pressed => cases h; rw [s.keypress_frame]; exact hs
  case load bytes => cases h; rw [s.load_frame]; exact hs
  case getDisplay => cases h; exact hs

/-- Settles O21: a step is one event; only a TICK moves `pc` elsewhere than to 0x200, by a fetch from below
0xFFF and one instruction. -/
theorem stepKeepsPcBounded : Obligations.StepKeepsPcBounded := fun s _ hs h =>
  let ⟨_, inp, he⟩ := step_event h
  raiseEvent_pcBounded (s := { s with inp := inp }) hs he

end Sys2Proof.Machine

/-! # PROOFS. TICK, the step and the faults (spec/30_encoding.md R75, R76, spec/60_exceptions.md) -/

namespace Sys2Proof.Machine

variable {i : Instr} {s t : State}

/-! ### O8, O9 -/

/-- Settles O8: the step is the TICK of the schedule, and in a running core that is `exec` of the decoded word. -/
theorem stepRunsTheDecodedInstruction : Obligations.StepRunsTheDecodedInstruction := by
  refine fun s i hf hp hd => ⟨fun rnd es he => ?_, fun he => ?_⟩
  · rw [step_of_event he rfl]
    exact State.tick_exec (by exact hf) (by exact hp) rnd (by exact hd)
  · rw [step_of_no_event he, ← he]
    exact State.tick_exec (by exact hf) (by exact hp) _ (by exact hd)

/-- Settles O9: the cases of a TICK, the word being the one whose number is given. -/
theorem tickFetchesDecodesAndExecutes : Obligations.TickFetchesDecodesAndExecutes := by
  refine fun s rnd => ⟨fun hf => State.tick_halted hf rnd, fun hf hp => State.tick_fetch_fault hf hp rnd,
    fun w hf hp hw => ?_⟩
  obtain rfl : w = s.wordAtPc := BitVec.eq_of_toNat_eq (hw.trans (wordOfBytes_toNat _ _).symm)
  exact ⟨fun _ hd => State.tick_decode_fault hf hp rnd hd, fun _ hd => State.tick_exec hf hp rnd hd⟩

/-! ### O10, O11 -/

/-- Every event answers a next state. -/
theorem raiseEvent_next (e : HostEvent) (s : State) : ∃ t, s.raiseEvent e = .next t := by
  cases e
  case tick rnd =>
    rcases s.tick_cases rnd with ⟨-, h⟩ | ⟨-, -, h⟩ | ⟨-, -, h⟩ | ⟨i, -, -, -, h⟩
    · exact ⟨_, h⟩
    · exact ⟨_, h⟩
    · exact ⟨_, h⟩
    · obtain ⟨t, ht⟩ := exec_next i (s.fetched rnd)
      exact ⟨t, h.trans ht⟩
  all_goals exact ⟨_, rfl⟩

theorem tickedAfter_of_other (ticked : Bool) {e : HostEvent} (ht : ∀ rnd, e ≠ .tick rnd) (hr : e ≠ .reset) :
    tickedAfter e ticked = ticked := by
  cases e
  case tick rnd => exact absurd rfl (ht rnd)
  case reset => exact absurd rfl hr
  all_goals rfl

/-- Settles O10: a step is the refusal of a late LOAD or one event, and every event answers a next state. -/
theorem stepsAnswerNextButForALateLoad : Obligations.StepsAnswerNextButForALateLoad := by
  refine ⟨fun ticked => ⟨fun _ => rfl, rfl, fun _ => tickedAfter_of_other ticked⟩,
    fun s => ⟨?late, fun hnot => ?_⟩⟩
  case late =>
    rintro ⟨hf, ht, bytes, es, he⟩
    exact step_of_late_load he ((State.refusesLoad_iff _).mpr ⟨hf, ht, bytes, rfl⟩)
  refine ⟨?next, fun e es he => step_of_event he ?_⟩
  case next =>
    rcases step_cases s with ⟨-, hlate⟩ | ⟨e, inp, he⟩
    · exact absurd hlate hnot
    · rw [he]
      exact raiseEvent_next e _
  rw [Bool.eq_false_iff, ne_eq, State.refusesLoad_iff]
  rintro ⟨hf, ht, bytes, rfl⟩
  exact hnot ⟨hf, ht, bytes, es, he⟩

/-- Settles O11: each event but RESET tests the fault record first. -/
theorem haltedCoreIgnoresEveryEventButReset : Obligations.HaltedCoreIgnoresEveryEventButReset := by
  refine fun s hf => ⟨fun e he => ?_, s.toReset, rfl, rfl⟩
  have hh := State.halted_eq_true hf
  cases e
  case tick rnd => exact State.tick_halted hf rnd
  case tickTimers => exact congrArg Host.Outcome.next (if_pos hh)
  case keypress => exact congrArg Host.Outcome.next (if_pos hh)
  case load => exact congrArg Host.Outcome.next (if_pos hh)
  case reset => exact absurd rfl he
  case getDisplay => rfl

/-! ### O12 -/

/-- An instruction that can fault has no ignored field, so the recorded word is the fetched one (log entry 5). -/
theorem encode_of_faultsOn {w : Word} {c : FaultCause} (hd : decodeWord w = .ok i) (hc : faultsOn i s c) :
    encode i = w := by
  refine encode_of_decodeWord hd fun x => ⟨?_, ?_⟩ <;> rintro rfl <;> exact hc

/-- The entry of a fault at execute time, written with the word and the address of the fetch (R190). -/
theorem raiseIn_eq {w a : Word} {c : FaultCause} (hw : encode i = w) (ha : s.pc = a + 2) :
    s.raiseIn c i = { s with fault := some { cause := c, opcode := some w, addr := some a } } := by
  have hpc : s.pc - 2 = a := by rw [ha, BitVec.add_sub_cancel]
  rw [State.raiseIn, hw, hpc]
  rfl

/-- A TICK that faults: the record, `pc` and the input `rnd` (R190). -/
theorem tick_fault {rnd : Byte} {f : FaultRecord} (hs : s.fault = none) (ht : t.fault = some f)
    (h : s.tick rnd = .next t) :
    t = { s with fault := some f, pc := t.pc, inp.rnd := rnd } ∧ f.addr = some s.pc ∧
      (4096 ≤ s.pc.toNat + 1 → t.pc = s.pc ∧ f.opcode = none) ∧
      (s.pc.toNat + 1 < 4096 → t.pc = s.pc + 2 ∧ f.opcode = some s.wordAtPc) := by
  rcases State.tick_inv h with ⟨hf, -⟩ | ⟨-, hp, rfl⟩ | ⟨-, hp, rfl⟩ | ⟨i, -, hp, hd, h⟩
  · exact absurd hs hf
  · cases ht
    exact ⟨rfl, rfl, fun _ => ⟨rfl, rfl⟩, fun hp' => by omega⟩
  · cases ht
    exact ⟨rfl, rfl, fun hp' => by omega, fun _ => ⟨rfl, rfl⟩⟩
  · rcases exec_cases h with ⟨c, hc, rfl⟩ | hend
    · rw [raiseIn_eq (encode_of_faultsOn hd hc) (show (s.fetched rnd).pc = s.pc + 2 from rfl)] at ht ⊢
      cases ht
      exact ⟨rfl, rfl, fun hp' => by omega, fun _ => ⟨rfl, rfl⟩⟩
    · have hnone : t.fault = none := (effect_of_endsIn hend).fault_eq.trans hs
      cases hnone.symm.trans ht

theorem load_fault {bytes : List Byte} {f : FaultRecord} (hs : s.fault = none) (hf : (s.load bytes).fault = some f) :
    s.load bytes = { s with fault := some f } ∧ f.opcode = none ∧ f.addr = none := by
  rcases s.load_cases bytes with ⟨hne, -⟩ | ⟨-, -, h⟩ | ⟨-, -, h⟩
  · exact absurd hs hne
  · rw [h] at hf ⊢
    cases hf
    exact ⟨rfl, rfl, rfl⟩
  · rw [h] at hf
    cases hs.symm.trans hf

theorem faultReport_of_running (hs : s.fault = none) (t : State) : faultReport s t = t.fault := by
  rw [faultReport, State.halted_eq_false hs, if_neg Bool.false_ne_true]

theorem faultReport_eq_none (h : s.fault ≠ none ∨ t.fault = none) : faultReport s t = none := by
  by_cases hs : s.fault = none
  · rw [faultReport_of_running hs, h.resolve_left (absurd hs)]
  · rw [faultReport, if_pos (State.halted_eq_true hs)]

/-- The event at which a running core comes to hold a fault record tells the host that record (R191). -/
theorem hostOutput_of_fault {e : HostEvent} {f : FaultRecord} (hs : s.fault = none) (ht : t.fault = some f)
    (h : s.raiseEvent e = .next t) : hostOutput e s t = .report f := by
  have hreport : faultReport s t = some f := (faultReport_of_running hs t).trans ht
  cases e
  case tick | load => rw [hostOutput, hreport, Option.elim_some]
  case tickTimers =>
    cases h
    rw [s.tickTimers_frame] at ht
    cases hs.symm.trans ht
  case keypress k pressed =>
    cases h
    rw [s.keypress_frame] at ht
    cases hs.symm.trans ht
  case reset => cases h; cases ht
  case getDisplay => cases h; cases hs.symm.trans ht

theorem hostOutput_ne_report {e : HostEvent} (h : s.fault ≠ none ∨ t.fault = none) (f : FaultRecord) :
    hostOutput e s t ≠ .report f := by
  cases e
  case tick | load =>
    rw [hostOutput, faultReport_eq_none h]
    exact nofun
  case getDisplay =>
    rw [hostOutput]
    cases s.displayView <;> exact nofun
  all_goals exact nofun

/-- Settles O12: by the event that raised the fault, and the report by what the event tells. -/
theorem faultsLeaveNoPartialEffect : Obligations.FaultsLeaveNoPartialEffect := by
  refine ⟨fun s t f hs ht => ⟨fun rnd h => tick_fault hs ht h, fun bytes h => ?_, fun e h =>
    hostOutput_of_fault hs ht h⟩, fun s t e _ hno f => hostOutput_ne_report hno f⟩
  cases h
  exact load_fault hs ht

/-! ### O59 -/

/-- Settles O59: the wait takes back the advance of `pc` by the fetch, so that the input `rnd` is all that differs. -/
theorem keyWaitLeavesTheCoreAsItWas : Obligations.KeyWaitLeavesTheCoreAsItWas := by
  intro s x rnd hf hp hd hup
  have hnone : (s.fetched rnd).lowestKeyDown = none := State.lowestKeyDown_none _ |>.mpr hup
  have hback : (s.fetched rnd).rewind = { s with inp.rnd := rnd } := by
    rw [State.rewind, BitVec.add_sub_cancel]
  rw [State.raiseEvent, State.tick_exec hf hp rnd hd, exec_ldVxK_none _ x hnone, hback]

end Sys2Proof.Machine

/-! # PROOFS. RESET and LOAD (spec/70_reset_and_hazards.md) -/

namespace Sys2Proof.Machine

variable {s t : State}

/-! ### O27 -/

/-- A step that answers a next state, as the first of a run. -/
theorem runSteps_succ {n : Nat} (h : runSteps (n + 1) s = some t) :
    ∃ u, step s = .next u ∧ runSteps n u = some t := by
  rw [runSteps] at h
  cases hs : step s with
  | next u => exact ⟨u, rfl, by simpa only [hs] using h⟩
  | fault r => simp only [hs, reduceCtorEq] at h
  | refused r => simp only [hs, reduceCtorEq] at h

theorem runSteps_font {n : Nat} (h : runSteps n s = some t) : t.font = s.font := by
  induction n generalizing s with
  | zero => cases h; rfl
  | succ n ih =>
    obtain ⟨u, hu, h⟩ := runSteps_succ h
    exact (ih h).trans (fontIsConstant s u hu)

/-- Settles O27: RESET takes only the FONT from the core, and no run changes that. -/
theorem resetForgetsEveryRun : Obligations.ResetForgetsEveryRun := by
  refine fun n s t h => ⟨s.toReset, t.toReset, rfl, rfl, ?_⟩
  rw [State.toReset, runSteps_font h]
  rfl

/-! ### O28 -/

/-- The bytes of a store, at their places. -/
theorem State.byteAt_store_in (s : State) {a j : Nat} {bs : List Byte} (h : j < bs.length) :
    (s.store a bs).byteAt (a + j) = bs[j] := by
  rw [s.byteAt_store, dif_pos ⟨by omega, by omega⟩]
  simp only [Nat.add_sub_cancel_left]

/-- The frame of a store in memory. -/
theorem State.byteAt_store_out (s : State) {a b : Nat} {bs : List Byte} (h : b < a ∨ a + bs.length ≤ b) :
    (s.store a bs).byteAt b = s.byteAt b := by
  rw [s.byteAt_store, dif_neg (by omega)]

/-- Settles O28: the three cases of a LOAD, and where a store puts its bytes. -/
theorem loadCopiesTheImage : Obligations.LoadCopiesTheImage := by
  refine fun s bytes => ⟨fun hf => ?_, fun hf hl => ?_, fun hf hl => ?_⟩
  · exact congrArg Host.Outcome.next (if_pos (State.halted_eq_true hf))
  · exact congrArg Host.Outcome.next (State.load_too_long hf hl)
  · exact ⟨_, congrArg Host.Outcome.next (State.load_fits hf hl), rfl, fun _ => s.byteAt_store_in,
      fun _ => s.byteAt_store_out⟩

/-! ### O29 -/

/-- Settles O29: the word at 0x200 is made of two zero bytes, which no row of the map takes. -/
theorem zeroedMemoryFaultsAtOnce : Obligations.ZeroedMemoryFaultsAtOnce := by
  intro s t rnd h
  cases h
  have hword : s.toReset.wordAtPc = 0 := by
    rw [State.wordAtPc, s.toReset_pc, s.byteAt_toReset_of_le (by decide), s.byteAt_toReset_of_le (by decide)]
    rfl
  have hd : decodeWord s.toReset.wordAtPc = .error (.invalidOpcode 0) := by
    rw [hword]
    rfl
  refine ⟨_, State.tick_decode_fault s.toReset_fault (by rw [s.toReset_pc]; decide) rnd hd, ?_, rfl⟩
  rw [hword, s.toReset_pc]

end Sys2Proof.Machine

/-! # PROOFS. The timers and the keypad as host events (spec/60_exceptions.md R202 to R205) -/

namespace Sys2Proof.Machine

variable {s : State}

/-! ### O30, O31 -/

theorem State.tickTimers_fault (s : State) : s.tickTimers.fault = s.fault := by rw [s.tickTimers_frame]

/-- Each timer of a running core after `n` TICK_TIMERS events (R202). -/
theorem timersTicked_toNat (hf : s.fault = none) (n : Nat) :
    (timersTicked n s).dt.toNat = s.dt.toNat - n ∧ (timersTicked n s).st.toNat = s.st.toNat - n := by
  induction n generalizing s with
  | zero => exact ⟨rfl, rfl⟩
  | succ n ih =>
    obtain ⟨hdt, hst⟩ := ih (s.tickTimers_fault.trans hf)
    rw [timersTicked, hdt, hst, State.tickTimers_running hf, countDown_toNat, countDown_toNat]
    omega

theorem timersTicked_fault (n : Nat) : (timersTicked n s).fault = s.fault := by
  induction n generalizing s with
  | zero => rfl
  | succ n ih => exact ih.trans s.tickTimers_fault

theorem State.toneEdge_iff (hf : s.fault = none) : s.toneEdge = true ↔ s.st = 1 := by
  rw [State.toneEdge, State.halted_eq_false hf, Bool.not_false, Bool.true_and, beq_iff_eq]

/-- Settles O30: the two counters of a running core, one event and then `n` of them. -/
theorem tickTimersDecrementsBothTimers : Obligations.TickTimersDecrementsBothTimers := by
  refine fun s => ⟨fun hf => congrArg Host.Outcome.next (if_pos (State.halted_eq_true hf)), fun hf =>
    ⟨⟨_, congrArg Host.Outcome.next (State.tickTimers_running hf), rfl, countDown_toNat s.dt, countDown_toNat s.st,
      State.toneEdge_iff hf, rfl⟩, timersTicked_toNat hf⟩⟩

/-- Settles O31: `k` events leave `ST - k`, which is 1 at one `k` only. -/
theorem oneToneEdgePerSetting : Obligations.OneToneEdgePerSetting := by
  intro s k hf
  have hst := (timersTicked_toNat hf k).2
  rw [State.toneEdge_iff ((timersTicked_fault k).trans hf), ← BitVec.toNat_inj, hst]
  show s.st.toNat - k = 1 ↔ _
  omega

/-! ### O32 -/

/-- Settles O32: one latch is set to the given value. -/
theorem keypressSetsOneLatch : Obligations.KeypressSetsOneLatch := by
  refine fun s k pressed hf => ⟨_, congrArg Host.Outcome.next (State.keypress_running hf k pressed),
    Vector.getElem_set_self k.isLt, fun j hj => ?_, rfl⟩
  exact Vector.getElem_set_ne k.isLt j.isLt fun h => hj (Fin.ext h.symm)

end Sys2Proof.Machine

/-! # PROOFS. The host's duty on LOAD (spec/60_exceptions.md R209, spec/70_reset_and_hazards.md R227) -/

namespace Sys2Proof.Machine

variable {i : Instr} {s t : State}

/-! ### What the duty says of the next event -/

theorem hostKeepsLoadDuty_tail {ticked : Bool} {e : HostEvent} {es : List HostEvent}
    (h : hostKeepsLoadDuty ticked (e :: es) = true) : hostKeepsLoadDuty (tickedAfter e ticked) es = true := by
  cases e
  case load bytes =>
    rw [hostKeepsLoadDuty, Bool.and_eq_true] at h
    exact h.2
  all_goals exact h

theorem hostKeepsLoadDuty_load {ticked : Bool} {bytes : List Byte} {es : List HostEvent}
    (h : hostKeepsLoadDuty ticked (.load bytes :: es) = true) : ticked = false ∧ bytes.length ≤ 3584 := by
  simp only [hostKeepsLoadDuty, Bool.and_eq_true, Bool.not_eq_true', decide_eq_true_eq] at h
  exact h.1

/-! ### What an event leaves of the schedule -/

theorem tick_schedule {rnd : Byte} (h : s.tick rnd = .next t) :
    t.inp.events = s.inp.events ∧ t.inp.ticked = s.inp.ticked := by
  rcases State.tick_inv h with ⟨-, rfl⟩ | ⟨-, -, rfl⟩ | ⟨-, -, rfl⟩ | ⟨i, -, -, -, h⟩
  · exact ⟨rfl, rfl⟩
  · exact ⟨rfl, rfl⟩
  · exact ⟨rfl, rfl⟩
  · rw [exec_inp h]
    exact ⟨rfl, rfl⟩

/-- No event touches what the host will raise; the step itself moves the schedule on. -/
theorem raiseEvent_schedule {e : HostEvent} (h : s.raiseEvent e = .next t) :
    t.inp.events = s.inp.events ∧ t.inp.ticked = s.inp.ticked := by
  cases e
  case tick => exact tick_schedule h
  case tickTimers => cases h; rw [s.tickTimers_frame]; exact ⟨rfl, rfl⟩
  case keypress k pressed => cases h; rw [s.keypress_frame]; exact ⟨rfl, rfl⟩
  case load bytes => cases h; rw [s.load_frame]; exact ⟨rfl, rfl⟩
  case reset => cases h; exact ⟨rfl, rfl⟩
  case getDisplay => cases h; exact ⟨rfl, rfl⟩

/-! ### LoadOutOfBounds comes from a LOAD only -/

/-- The core holds no LoadOutOfBounds record. -/
def noLoadFault (s : State) : Prop := ∀ f len, s.fault = some f → f.cause ≠ .loadOutOfBounds len

theorem noLoadFault_of_fault {f : FaultRecord} (h : s.fault = some f) (hc : ∀ len, f.cause ≠ .loadOutOfBounds len) :
    noLoadFault s := by
  intro g len hg
  rw [h] at hg
  cases hg
  exact hc len

theorem noLoadFault_congr (hs : noLoadFault s) (h : t.fault = s.fault) : noLoadFault t := by
  rw [noLoadFault, h]
  exact hs

theorem ne_loadOutOfBounds_of_faultsOn {c : FaultCause} (h : faultsOn i s c) (len : Nat) :
    c ≠ .loadOutOfBounds len := by
  rintro rfl
  cases i
  case ret | call | ldB | stRegs | ldRegs | skp | sknp => cases h.2
  case drw => cases h.2.2
  all_goals exact h

theorem exec_noLoadFault (hs : noLoadFault s) (h : exec i s = .next t) : noLoadFault t := by
  rcases exec_cases h with ⟨c, hc, rfl⟩ | hend
  · exact noLoadFault_of_fault (s.raiseIn_fault c i) (ne_loadOutOfBounds_of_faultsOn hc)
  · exact noLoadFault_congr hs (effect_of_endsIn hend).fault_eq

theorem tick_noLoadFault (hs : noLoadFault s) {rnd : Byte} (h : s.tick rnd = .next t) : noLoadFault t := by
  rcases State.tick_inv h with ⟨-, rfl⟩ | ⟨-, -, rfl⟩ | ⟨-, -, rfl⟩ | ⟨i, -, -, -, h⟩
  · exact hs
  · exact noLoadFault_of_fault rfl nofun
  · exact noLoadFault_of_fault rfl nofun
  · exact exec_noLoadFault (s := s.fetched rnd) hs h

/-- An event raises LoadOutOfBounds only if it is a LOAD that does not fit (R224). -/
theorem raiseEvent_noLoadFault (hs : noLoadFault s) {e : HostEvent}
    (hfit : ∀ bytes, e = .load bytes → bytes.length ≤ 3584) (h : s.raiseEvent e = .next t) : noLoadFault t := by
  cases e
  case tick => exact tick_noLoadFault hs h
  case load bytes =>
    cases h
    have hl := hfit bytes rfl
    rcases s.load_cases bytes with ⟨-, h⟩ | ⟨-, hlong, -⟩ | ⟨-, -, h⟩
    · rwa [h]
    · omega
    · rw [h]
      exact hs
  case tickTimers => cases h; exact noLoadFault_congr hs s.tickTimers_fault
  case keypress k pressed => cases h; rw [s.keypress_frame]; exact hs
  case reset => cases h; exact nofun
  case getDisplay => cases h; exact hs

/-! ### O60 -/

/-- One step of a host that keeps its duties: it is performed, and the duties stay kept. -/
theorem step_of_duty (hd : hostKeepsLoadDuty s.inp.ticked s.inp.events = true) :
    ∃ t, step s = .next t ∧ hostKeepsLoadDuty t.inp.ticked t.inp.events = true ∧
      (noLoadFault s → noLoadFault t) := by
  cases he : s.inp.events with
  | nil =>
    obtain ⟨t, ht⟩ := raiseEvent_next (.tick (Config.randomByte s.inp.draws))
      { s with inp.draws := s.inp.draws + 1, inp.ticked := true }
    obtain ⟨hev, -⟩ := raiseEvent_schedule ht
    refine ⟨t, (step_of_no_event he).trans ht, ?_,
      fun hs => raiseEvent_noLoadFault (by exact hs) (by rintro _ ⟨⟩) ht⟩
    rw [hev.trans he, hostKeepsLoadDuty]
  | cons e es =>
    rw [he] at hd
    have hr : s.refusesLoad e = false := by
      rw [Bool.eq_false_iff, ne_eq, State.refusesLoad_iff]
      rintro ⟨-, ht, bytes, rfl⟩
      exact absurd ht (by rw [(hostKeepsLoadDuty_load hd).1]; decide)
    obtain ⟨t, ht⟩ := raiseEvent_next e { s with inp.events := es, inp.ticked := tickedAfter e s.inp.ticked }
    obtain ⟨hev, htick⟩ := raiseEvent_schedule ht
    refine ⟨t, (step_of_event he hr).trans ht, ?_, fun hs => raiseEvent_noLoadFault (by exact hs) ?_ ht⟩
    · rw [hev, htick]
      exact hostKeepsLoadDuty_tail hd
    · rintro bytes rfl
      exact (hostKeepsLoadDuty_load hd).2

/-- Settles O60: by induction on the length of the run. -/
theorem hostDutyKeepsEveryRunGoing : Obligations.HostDutyKeepsEveryRunGoing := by
  intro n
  induction n with
  | zero => exact fun s hd => ⟨s, rfl, hd, id⟩
  | succ n ih =>
    intro s hd
    obtain ⟨u, hu, hdu, hsu⟩ := step_of_duty hd
    obtain ⟨t, ht, hdt, hut⟩ := ih u hdu
    refine ⟨t, ?_, hdt, fun hs => hut (hsu hs)⟩
    rw [runSteps, hu]
    exact ht

end Sys2Proof.Machine

/-! # PROOFS. Memory accesses and the instructions that make them (spec/20_memory.md, spec/43_index_memory.md) -/

namespace Sys2Proof.Machine

variable {s : State}

/-! ### O23, O24 -/

/-- The digits of a big-endian number are its bytes (R52). -/
theorem bigEndian_digit (bs : List Byte) (j : Nat) (h : j < bs.length) :
    bigEndian bs / 256 ^ (bs.length - 1 - j) % 256 = (bs[j]).toNat := by
  induction bs generalizing j with
  | nil => exact absurd h (Nat.not_lt_zero j)
  | cons b bs ih =>
    have hlt := bigEndian_lt bs
    rw [bigEndian_cons]
    cases j with
    | zero =>
      have hdiv : (b.toNat * 256 ^ bs.length + bigEndian bs) / 256 ^ bs.length = b.toNat := by
        rw [Nat.mul_comm, Nat.mul_add_div (by positivity), Nat.div_eq_of_lt hlt, Nat.add_zero]
      simpa [hdiv] using b.isLt
    | succ j =>
      have hj : j < bs.length := Nat.lt_of_succ_lt_succ h
      obtain ⟨k, hk⟩ : ∃ k, bs.length = (bs.length - 1 - j) + (k + 1) := ⟨j, by omega⟩
      have hlen : (b :: bs).length - 1 - (j + 1) = bs.length - 1 - j := by
        rw [List.length_cons]
        omega
      have hdiv : (b.toNat * 256 ^ bs.length + bigEndian bs) / 256 ^ (bs.length - 1 - j)
          = 256 * (b.toNat * 256 ^ k) + bigEndian bs / 256 ^ (bs.length - 1 - j) := by
        have hpow : b.toNat * 256 ^ bs.length = 256 ^ (bs.length - 1 - j) * (256 * (b.toNat * 256 ^ k)) := by
          conv_lhs => rw [hk, pow_add]
          ring
        rw [hpow, Nat.mul_add_div (by positivity)]
      rw [hlen, hdiv, Nat.mul_add_mod]
      exact ih j hj

/-- Settles O23: the span check, and the digits of the number read. -/
theorem memReadIsBigEndianAndRangeChecked : Obligations.MemReadIsBigEndianAndRangeChecked := by
  refine fun s a n hn => ⟨fun h => ?_, fun h => ?_⟩
  · rw [State.memRead, State.loadSpan_error s (by omega) (by omega)]
    rfl
  · have hlen : ((List.range n).map fun j => s.byteAt (a + j)).length = n := by simp
    refine ⟨bigEndian ((List.range n).map fun j => s.byteAt (a + j)), ?_, ?_, fun j hj => ?_⟩
    · rw [State.memRead, State.loadSpan_ok s (by omega)]
      rfl
    · simpa only [hlen] using bigEndian_lt ((List.range n).map fun j => s.byteAt (a + j))
    · have hdigit := bigEndian_digit ((List.range n).map fun j => s.byteAt (a + j)) j (by rwa [hlen])
      simpa only [hlen, List.getElem_map, List.getElem_range] using hdigit

theorem bigEndianBytes_getElem {n v j : Nat} (h : j < (bigEndianBytes n v).length) :
    ((bigEndianBytes n v)[j]).toNat = v / 256 ^ (n - 1 - j) % 256 := by
  simp [bigEndianBytes]

/-- Settles O24: the span check comes first, and the store puts the digits of the number at their places. -/
theorem memWriteStoresMostSignificantByteFirst : Obligations.MemWriteStoresMostSignificantByteFirst := by
  refine fun s a n v hn => ⟨fun h => ?_, fun h => ?_⟩
  · exact s.storeSpan_error (by rw [bigEndianBytes_length]; omega) (by rw [bigEndianBytes_length]; omega)
  · refine ⟨_, s.storeSpan_ok (by rw [bigEndianBytes_length]; omega), rfl, fun j hj => ?_, fun b hb => ?_⟩
    · rw [s.byteAt_store_in (by rwa [bigEndianBytes_length]), bigEndianBytes_getElem]
    · exact s.byteAt_store_out (by rwa [bigEndianBytes_length])

/-! ### Faults at execute time -/

/-- An instruction without an ignored field that raises `c` takes the fault `c` at its word and address. -/
theorem takesFault_of_exec {i : Instr} {c : FaultCause} (hs : ∀ x, i ≠ .shr x ∧ i ≠ .shl x)
    (h : exec i s = .next (s.raiseIn c i)) : takesFault i s c := by
  intro w a hd ha
  rw [h, raiseIn_eq (encode_of_decodeWord hd hs) ha]

/-! ### O51 -/

/-- Settles O51: five times a byte fits 16 bits. -/
theorem fontAddressIsTheExactProduct : Obligations.FontAddressIsTheExactProduct := by
  refine ⟨fun w hw => decodeWord_of_row (.ldF 0) hw,
    fun x s => ⟨{ s with i := zext16 (s.reg x) * 5 }, rfl, ?_, rfl⟩⟩
  have hb := (s.reg x).isLt
  rw [BitVec.toNat_mul, zext16_toNat]
  show (s.reg x).toNat * 5 % 65536 = _
  omega

/-! ### O52 -/

/-- The three digits of a byte are below 10, so each one fits its byte (R159). -/
theorem decimalDigits_toNat (b : Byte) :
    ∃ h t o, decimalDigits b = [h, t, o] ∧ h.toNat = b.toNat / 100 ∧ t.toNat = b.toNat / 10 % 10 ∧
      o.toNat = b.toNat % 10 := by
  have hb := b.isLt
  refine ⟨_, _, _, rfl, ?_, ?_, ?_⟩ <;> rw [BitVec.toNat_ofNat] <;> omega

/-- Settles O52: the store of the three digits, inside memory; the fault beyond it. -/
theorem bcdStoresThreeDigits : Obligations.BcdStoresThreeDigits := by
  refine ⟨fun w hw => decodeWord_of_row (.ldB 0) hw, fun x s =>
    ⟨fun h => takesFault_of_exec (fun _ => ⟨nofun, nofun⟩) (exec_ldB_fault s x h), fun h => ?_⟩⟩
  obtain ⟨hu, te, on, hdig, hhu, hte, hon⟩ := decimalDigits_toNat (s.reg x)
  refine ⟨_, exec_ldB_ok s x h, rfl, ?_⟩
  rw [hdig]
  refine ⟨?_, ?_, ?_, fun a ha => s.byteAt_store_out ha⟩
  · rw [← hhu]
    exact congrArg BitVec.toNat (s.byteAt_store_in (bs := [hu, te, on]) (j := 0) (by decide : 0 < 3))
  · rw [← hte]
    exact congrArg BitVec.toNat (s.byteAt_store_in (bs := [hu, te, on]) (j := 1) (by decide : 1 < 3))
  · rw [← hon]
    exact congrArg BitVec.toNat (s.byteAt_store_in (bs := [hu, te, on]) (j := 2) (by decide : 2 < 3))

/-! ### O53, O25 -/

/-- Where a store of V0..Vx puts each register (R160). -/
theorem byteAt_store_regValues (s : State) {x j : Reg} (a : Nat) (h : j ≤ x) :
    (s.store a (s.regValues x)).byteAt (a + j.val) = s.reg j := by
  have hj : j.val < (s.regValues x).length := by
    rw [s.regValues_length]
    exact Nat.lt_succ_of_le h
  rw [s.byteAt_store_in hj, s.regValues_getElem]

/-- Settles O53: the store of the register values, inside memory; the fault beyond it. -/
theorem storeRegistersWritesTheSpan : Obligations.StoreRegistersWritesTheSpan := by
  refine ⟨fun w hw => decodeWord_of_row (.stRegs 0) hw, fun x s =>
    ⟨fun h => takesFault_of_exec (fun _ => ⟨nofun, nofun⟩) (exec_stRegs_fault s x h), fun h =>
      ⟨_, exec_stRegs_ok s x h, rfl, fun _ => byteAt_store_regValues s _, fun a ha => ?_⟩⟩⟩
  exact s.byteAt_store_out (by rw [s.regValues_length]; omega)

/-- Settles O25: the two bytes that the fetch reads are those the store has put there. -/
theorem storedBytesAreFetchedAtOnce : Obligations.StoredBytesAreFetchedAtOnce := by
  intro s x j k h hjk hkx
  refine ⟨_, exec_stRegs_ok s x h, fun a ha => ?_⟩
  have hk := Fin.le_def.mp hkx
  have hjx : j ≤ x := Fin.le_def.mpr (by omega)
  have hlo : (s.store s.dataAddr (s.regValues x)).byteAt a.toNat = s.reg j := by
    rw [ha]
    exact byteAt_store_regValues s _ hjx
  have hhi : (s.store s.dataAddr (s.regValues x)).byteAt (a.toNat + 1) = s.reg k := by
    rw [ha, Nat.add_assoc, ← hjk]
    exact byteAt_store_regValues s _ hkx
  refine ⟨{ s.store s.dataAddr (s.regValues x) with pc := a + 2 }, ?_, rfl⟩
  rw [← hlo, ← hhi]
  exact State.fetch_ok _ (show a.toNat + 1 < 4096 by omega)

/-! ### O54, O55 -/

/-- The registers after a load of V0..Vx from memory (R161). -/
theorem exec_ldRegs_reg (x : Reg) (h : s.dataAddr + x.val < 4096) :
    ∃ t, exec (.ldRegs x) s = .next t ∧ t = { s with v := t.v } ∧
      (∀ j : Reg, j ≤ x → t.reg j = s.byteAt (s.dataAddr + j.val)) ∧ ∀ j : Reg, x < j → t.reg j = s.reg j := by
  have hreg := s.setRegs_regsUpTo x fun j => s.byteAt (s.dataAddr + j)
  refine ⟨_, exec_ldRegs_ok s x h, s.setRegs_frame _ _, fun j hj => ?_, fun j hj => ?_⟩
  · rw [hreg, if_pos hj]
  · rw [hreg, if_neg (not_le.mpr hj)]

/-- Settles O54: the load of the registers, inside memory; the fault beyond it. -/
theorem loadRegistersReadsTheSpan : Obligations.LoadRegistersReadsTheSpan :=
  ⟨fun _ hw => decodeWord_of_row (.ldRegs 0) hw, fun x s =>
    ⟨fun h => takesFault_of_exec (fun _ => ⟨nofun, nofun⟩) (exec_ldRegs_fault s x h), exec_ldRegs_reg x⟩⟩

/-- Settles O55: the load reads what the store has put there; registers take no part in reading a byte. -/
theorem storeThenLoadRestoresTheRegisters : Obligations.StoreThenLoadRestoresTheRegisters := by
  intro x s regs h
  obtain ⟨u, hu, -, hreg, -⟩ :=
    exec_ldRegs_reg (s := { s.store s.dataAddr (s.regValues x) with v := regs }) x h
  exact ⟨_, u, exec_stRegs_ok s x h, hu, fun j hj => (hreg j hj).trans (byteAt_store_regValues s _ hj)⟩

end Sys2Proof.Machine

/-! # PROOFS. The key skips (spec/44_keypad_timers.md R171, R172) -/

namespace Sys2Proof.Machine

/-! ### O56 -/

/-- Settles O56: the skip on the latch, for a number of a key; the fault for any other number. -/
theorem keySkipsReadTheLatch : Obligations.KeySkipsReadTheLatch := by
  refine ⟨fun w hw => decodeWord_of_row (.skp 0) hw, fun w hw => decodeWord_of_row (.sknp 0) hw, fun x s =>
    ⟨fun h => ⟨takesFault_of_exec (fun _ => ⟨nofun, nofun⟩) (exec_skp_fault s x h),
      takesFault_of_exec (fun _ => ⟨nofun, nofun⟩) (exec_sknp_fault s x h)⟩, fun h => ⟨?_, ?_⟩⟩⟩
  · rw [exec_skp_ok s x h, State.skipIf_eq]
  · rw [exec_sknp_ok s x h, State.skipIf_eq]
    cases s.key[(s.reg x).toNat] <;> rfl

end Sys2Proof.Machine

/-! # PROOFS. Return, jump and call (spec/41_flow.md) -/

namespace Sys2Proof.Machine

variable {s : State}

/-! ### O37, O38, O39 -/

/-- Settles O37: the pop of the top entry; the fault on the empty stack. -/
theorem retPopsTheReturnAddress : Obligations.RetPopsTheReturnAddress := by
  refine ⟨fun w hw => decodeWord_of_row .ret hw, fun s =>
    ⟨fun h => takesFault_of_exec (fun _ => ⟨nofun, nofun⟩) (exec_ret_fault s h), fun j hj hsp => ?_⟩⟩
  exact ⟨_, exec_ret_ok s (by omega), by simp [hsp], by simp [hsp], rfl⟩

theorem exec_jp (nnn : Word) (s : State) : exec (.jp nnn) s = .next (s.setPc nnn) := rfl

theorem exec_jpV0 (nnn : Word) (s : State) : exec (.jpV0 nnn) s = .next (s.setPc (zext16 (s.reg 0) + nnn)) := rfl

/-- Settles O38: each jump writes `pc` alone, the sum of a byte and an address below 4096 fits 16 bits, and a
fetch at 4095 or above faults. -/
theorem jumpsSetThePc : Obligations.JumpsSetThePc := by
  refine ⟨fun w hw => decodeWord_of_row (.jp 0) hw, fun w hw => decodeWord_of_row (.jpV0 0) hw,
    fun nnn s hn => ⟨exec_jp nnn s, _, exec_jpV0 nnn s, ?_, rfl⟩, fun nnn s t hn hf h hpc rnd => ?_⟩
  · have hb := (s.reg 0).isLt
    rw [s.setPc_pc, BitVec.toNat_add, zext16_toNat]
    omega
  · have ht : t.fault = none := by
      rcases h with h | h <;> cases h <;> exact hf
    exact ⟨_, State.tick_fetch_fault ht (by omega) rnd, rfl⟩

/-- Settles O39: the push of the advanced `pc`; the fault on the full stack. -/
theorem callPushesTheAdvancedPc : Obligations.CallPushesTheAdvancedPc := by
  refine ⟨fun w hw => decodeWord_of_row (.call 0) hw, fun nnn s _ =>
    ⟨fun h => takesFault_of_exec (fun _ => ⟨nofun, nofun⟩) (exec_call_fault s nnn h), fun h =>
      ⟨_, exec_call_ok s nnn h, rfl, rfl, Vector.getElem_set_self h, fun j hj hne => ?_, rfl⟩⟩⟩
  exact Vector.getElem_set_ne h hj hne.symm

/-! ### O40 -/

/-- Settles O40: the call left its return address on top, and the return takes the top entry. -/
theorem returnResumesAfterTheCall : Obligations.ReturnResumesAfterTheCall := by
  intro nnn s t u h hs ht hst hsp
  rcases exec_cases h with ⟨c, -, rfl⟩ | ⟨hlt, rfl⟩
  · cases ht
  have husp : u.sp.val = s.sp.val + 1 := congrArg Fin.val hsp
  obtain ⟨v, hv, hpc, hvsp, hframe⟩ := (retPopsTheReturnAddress.2 u).2 s.sp.val hlt husp
  refine ⟨v, hv, ?_, Fin.ext hvsp, by rw [hframe]⟩
  rw [hpc]
  simp only [hst]
  exact Vector.getElem_set_self hlt

/-! ### O41 -/

/-- The state that a call leaves. -/
def State.called (s : State) (nnn : Word) : State :=
  match exec (.call nnn) s with
  | .next t => t
  | .fault _ => s
  | .refused _ => s

theorem exec_call (s : State) (nnn : Word) : exec (.call nnn) s = .next (s.called nnn) := by
  obtain ⟨t, ht⟩ := exec_next (.call nnn) s
  rw [State.called, ht]

/-- The state after `k` nested calls. -/
def nestedCalls (target : Nat → Word) (s : State) : Nat → State
  | 0 => s
  | k + 1 => (nestedCalls target s k).called (target k)

/-- A call with room on the stack adds one entry and no fault record. -/
theorem called_sp_fault (h : s.sp.val < 16) (nnn : Word) :
    (s.called nnn).sp.val = s.sp.val + 1 ∧ (s.called nnn).fault = s.fault := by
  have hcall := (exec_call s nnn).symm.trans (exec_call_ok s nnn h)
  rw [Host.Outcome.next.inj hcall]
  exact ⟨rfl, rfl⟩

theorem nestedCalls_sp_fault (target : Nat → Word) (hsp : s.sp.val = 0) (hf : s.fault = none) :
    ∀ k, k ≤ 16 → (nestedCalls target s k).sp.val = k ∧ (nestedCalls target s k).fault = none
  | 0, _ => ⟨hsp, hf⟩
  | k + 1, hk => by
    obtain ⟨hsp, hf⟩ := nestedCalls_sp_fault target hsp hf k (by omega)
    obtain ⟨hsp', hf'⟩ := called_sp_fault (s := nestedCalls target s k) (by omega) (target k)
    exact ⟨hsp'.trans (congrArg (· + 1) hsp), hf'.trans hf⟩

/-- Settles O41: by induction on the number of calls each one finds room, and the seventeenth does not. -/
theorem sixteenNestedCallsAreLegal : Obligations.SixteenNestedCallsAreLegal := by
  intro target s hsp hf
  have hinv := nestedCalls_sp_fault target hsp hf
  refine ⟨nestedCalls target s, rfl, fun k hk => ⟨exec_call _ _, hinv (k + 1) hk⟩, ?_⟩
  exact ⟨_, exec_call_fault _ (target 16) (hinv 16 le_rfl).1, rfl⟩

end Sys2Proof.Machine

/-! # PROOFS. Arithmetic, logic, shift and random (spec/42_alu.md) -/

namespace Sys2Proof.Machine

/-! ### O45, O49 -/

theorem exec_orReg (x y : Reg) (s : State) : exec (.orReg x y) s = .next (s.setReg x (s.reg x ||| s.reg y)) := rfl

theorem exec_andReg (x y : Reg) (s : State) : exec (.andReg x y) s = .next (s.setReg x (s.reg x &&& s.reg y)) := rfl

theorem exec_xorReg (x y : Reg) (s : State) : exec (.xorReg x y) s = .next (s.setReg x (s.reg x ^^^ s.reg y)) := rfl

theorem exec_rnd (x : Reg) (kk : Byte) (s : State) : exec (.rnd x kk) s = .next (s.setReg x (s.inp.rnd &&& kk)) := rfl

/-- Settles O45: each is one register write of a bitwise operation. -/
theorem logicActsBitByBit : Obligations.LogicActsBitByBit := by
  refine ⟨fun w hw => decodeWord_of_row (.orReg 0 0) hw, fun w hw => decodeWord_of_row (.andReg 0 0) hw,
    fun w hw => decodeWord_of_row (.xorReg 0 0) hw, fun x y s => ⟨?orReg, ?andReg, ?xorReg⟩⟩
  case orReg =>
    refine ⟨_, exec_orReg x y s, onlyRegsChange_setReg s x _, fun b => ?_⟩
    rw [s.reg_setReg_self, BitVec.getLsbD_or]
  case andReg =>
    refine ⟨_, exec_andReg x y s, onlyRegsChange_setReg s x _, fun b => ?_⟩
    rw [s.reg_setReg_self, BitVec.getLsbD_and]
  case xorReg =>
    refine ⟨_, exec_xorReg x y s, onlyRegsChange_setReg s x _, fun b => ?_⟩
    rw [s.reg_setReg_self, BitVec.getLsbD_xor]

/-- Settles O49: one register write of the masked byte of the TICK. -/
theorem rndMasksTheRandomByte : Obligations.RndMasksTheRandomByte := by
  refine ⟨fun w hw => decodeWord_of_row (.rnd 0 0) hw, fun x kk byte s hrnd =>
    ⟨_, exec_rnd x kk s, onlyRegsChange_setReg s x _, fun b => ?_⟩⟩
  rw [s.reg_setReg_self, hrnd, BitVec.getLsbD_and]

/-! ### A result and a flag (R143) -/

/-- The frame of the two writes, in either order. -/
theorem onlyRegsChange_resultThenFlag (s : State) (x : Reg) (b f : Byte) :
    onlyRegsChange s (s.resultThenFlag x b f) [x, 15] :=
  ⟨fun r hr => by_contra fun hne => hr (by simpa using eq_of_reg_resultThenFlag_ne hne), rfl⟩

theorem onlyRegsChange_flagThenResult (s : State) (x : Reg) (b f : Byte) :
    onlyRegsChange s (s.flagThenResult x b f) [x, 15] :=
  ⟨fun r hr => by_contra fun hne => hr (by simpa using eq_of_reg_flagThenResult_ne hne), rfl⟩

theorem State.resultThenFlag_flag (s : State) (x : Reg) (b f : Byte) : (s.resultThenFlag x b f).reg 15 = f := by
  rw [s.resultThenFlag_reg, if_pos rfl]

theorem State.resultThenFlag_result (s : State) {x : Reg} (h : x ≠ 15) (b f : Byte) :
    (s.resultThenFlag x b f).reg x = b := by
  rw [s.resultThenFlag_reg, if_neg h, if_pos rfl]

theorem State.flagThenResult_result (s : State) (x : Reg) (b f : Byte) : (s.flagThenResult x b f).reg x = b := by
  rw [s.flagThenResult_reg, if_pos rfl]

theorem State.flagThenResult_flag (s : State) {x : Reg} (h : x ≠ 15) (b f : Byte) :
    (s.flagThenResult x b f).reg 15 = f := by
  rw [s.flagThenResult_reg, if_neg h.symm, if_pos rfl]

/-! ### O46 -/

theorem wideSum_toNat (a b : Byte) : (wideSum a b).toNat = a.toNat + b.toNat := by
  have ha := a.isLt
  have hb := b.isLt
  simp only [wideSum, BitVec.toNat_add, BitVec.toNat_setWidth]
  omega

/-- Bit 8 of the 9-bit sum is set exactly when the sum exceeds a byte (R137). -/
theorem carryFlag_eq (a b : Byte) : carryFlag a b = if 255 < a.toNat + b.toNat then 1 else 0 := by
  have ha := a.isLt
  have hb := b.isLt
  have hbit : (wideSum a b).getLsbD 8 = decide (255 < a.toNat + b.toNat) := by
    rw [BitVec.getLsbD, wideSum_toNat, Nat.testBit_eq_decide_div_mod_eq, decide_eq_decide]
    omega
  rw [carryFlag, hbit, flagByte]
  simp only [decide_eq_true_eq]

theorem exec_addReg (x y : Reg) (s : State) : exec (.addReg x y) s = .next (s.resultThenFlag x
    ((wideSum (s.reg x) (s.reg y)).setWidth 8) (carryFlag (s.reg x) (s.reg y))) := rfl

/-- Settles O46: the 9-bit sum is exact; its low byte is the result, its top bit the carry. -/
theorem addSetsTheCarry : Obligations.AddSetsTheCarry := by
  refine ⟨fun w hw => decodeWord_of_row (.addReg 0 0) hw, fun x y s =>
    ⟨_, exec_addReg x y s, onlyRegsChange_resultThenFlag s x _ _, fun hx => ?_, ?_⟩⟩
  · rw [s.resultThenFlag_result hx, BitVec.toNat_setWidth, wideSum_toNat]
  · rw [s.resultThenFlag_flag, carryFlag_eq]

/-! ### O47 -/

theorem noBorrowFlag_eq (a b : Byte) : noBorrowFlag a b = if b.toNat ≤ a.toNat then 1 else 0 := by
  simp only [noBorrowFlag, flagByte, decide_eq_true_eq]

theorem sub_toNat (a b : Byte) : (a - b).toNat = (a.toNat + 256 - b.toNat) % 256 := by
  have hb := b.isLt
  rw [BitVec.toNat_sub]
  omega

theorem exec_sub (x y : Reg) (s : State) : exec (.sub x y) s = .next (s.resultThenFlag x
    (s.reg x - s.reg y) (noBorrowFlag (s.reg x) (s.reg y))) := rfl

theorem exec_subn (x y : Reg) (s : State) : exec (.subn x y) s = .next (s.resultThenFlag x
    (s.reg y - s.reg x) (noBorrowFlag (s.reg y) (s.reg x))) := rfl

/-- Settles O47: the byte difference and the comparison of the operands, in both orders. -/
theorem subtractionsSetNoBorrow : Obligations.SubtractionsSetNoBorrow := by
  refine ⟨fun w hw => decodeWord_of_row (.sub 0 0) hw, fun w hw => decodeWord_of_row (.subn 0 0) hw, fun x y s =>
    ⟨⟨_, exec_sub x y s, onlyRegsChange_resultThenFlag s x _ _, fun hx => ?_, ?_⟩,
      ⟨_, exec_subn x y s, onlyRegsChange_resultThenFlag s x _ _, fun hx => ?_, ?_⟩⟩⟩
  · rw [s.resultThenFlag_result hx, sub_toNat]
  · rw [s.resultThenFlag_flag, noBorrowFlag_eq]
  · rw [s.resultThenFlag_result hx, sub_toNat]
  · rw [s.resultThenFlag_flag, noBorrowFlag_eq]

/-! ### O48 -/

theorem flagByte_toNat (c : Bool) : (flagByte c).toNat = c.toNat := by cases c <;> rfl

/-- The bit that a right shift loses is the remainder by 2. -/
theorem shrFlag_toNat (a : Byte) : (shrFlag a).toNat = a.toNat % 2 := by
  rw [shrFlag, flagByte_toNat, BitVec.getLsbD, Nat.toNat_testBit, pow_zero, Nat.div_one]

/-- The bit that a left shift loses is the quotient by 128. -/
theorem shlFlag_toNat (a : Byte) : (shlFlag a).toNat = a.toNat / 128 := by
  have ha := a.isLt
  rw [shlFlag, flagByte_toNat, BitVec.getLsbD, Nat.toNat_testBit]
  omega

theorem exec_shr (x : Reg) (s : State) :
    exec (.shr x) s = .next (s.flagThenResult x (s.reg x >>> 1) (shrFlag (s.reg x))) := rfl

theorem exec_shl (x : Reg) (s : State) :
    exec (.shl x) s = .next (s.flagThenResult x (s.reg x <<< 1) (shlFlag (s.reg x))) := rfl

/-- Settles O48: the shifts as division and multiplication by 2, the flags as what these drop. -/
theorem shiftsCatchTheBitShiftedOut : Obligations.ShiftsCatchTheBitShiftedOut := by
  refine ⟨fun w hw => decodeWord_of_row (.shr 0) hw, fun w hw => decodeWord_of_row (.shl 0) hw, fun x s =>
    ⟨⟨_, exec_shr x s, onlyRegsChange_flagThenResult s x _ _, ?_, fun hx => ?_⟩,
      ⟨_, exec_shl x s, onlyRegsChange_flagThenResult s x _ _, ?_, fun hx => ?_⟩⟩⟩
  · rw [s.flagThenResult_result, BitVec.toNat_ushiftRight, Nat.shiftRight_eq_div_pow, pow_one]
  · rw [s.flagThenResult_flag hx, shrFlag_toNat]
  · rw [s.flagThenResult_result, BitVec.toNat_shiftLeft, Nat.shiftLeft_eq, pow_one]
  · rw [s.flagThenResult_flag hx, shlFlag_toNat]

end Sys2Proof.Machine

/-! # PROOFS. Drawing (spec/40_display.md R102, R103) -/

namespace Sys2Proof.Machine

variable {s : State}

/-! ### The sprite at `I` and its mask -/

/-- The bytes that Dxyn reads, the top row first. -/
abbrev State.spriteBytes (s : State) (n : Nat) : List Byte :=
  (List.range n).map fun j => s.byteAt (s.dataAddr + j)

/-- The mask of R103 is that of the bytes read. -/
theorem spriteMask_iff {vx vy n cx cy : Nat} :
    spriteMask s vx vy n cx cy ↔ rowsMask vx vy (s.spriteBytes n) cx cy := by
  constructor
  · rintro ⟨r, hr, c, hc, hb, hx, hy⟩
    exact ⟨r, by simpa using hr, c, hc, by simpa using hb, hx, hy⟩
  · rintro ⟨r, hr, c, hc, hb, hx, hy⟩
    exact ⟨r, by simpa using hr, c, hc, by simpa using hb, hx, hy⟩

theorem spriteBytes_length_le (s : State) {n : Nat} (hn : n < 16) : (s.spriteBytes n).length ≤ 32 := by
  rw [List.length_map, List.length_range]
  omega

theorem drawSprite_pixel {n : Nat} (hn : n < 16) (vx vy cx cy : Nat) :
    (spriteMask s vx vy n cx cy →
      Display.pixel (s.drawSprite vx vy (s.spriteBytes n)).disp cx cy = !Display.pixel s.disp cx cy) ∧
    (¬ spriteMask s vx vy n cx cy →
      Display.pixel (s.drawSprite vx vy (s.spriteBytes n)).disp cx cy = Display.pixel s.disp cx cy) := by
  rw [spriteMask_iff]
  exact blendRows_pixel vx vy _ (s.disp, false) (spriteBytes_length_le s hn) cx cy

/-- VF after a draw is the collision flag (R102). -/
theorem drawSprite_reg_VF {n : Nat} (hn : n < 16) (vx vy : Nat) :
    (spriteHits s vx vy n → (s.drawSprite vx vy (s.spriteBytes n)).reg 15 = 1) ∧
    (¬ spriteHits s vx vy n → (s.drawSprite vx vy (s.spriteBytes n)).reg 15 = 0) := by
  have hflag : (blendRows vx vy (s.spriteBytes n) (s.disp, false)).2 = true ↔ spriteHits s vx vy n := by
    rw [blendRows_flag vx vy _ _ (spriteBytes_length_le s hn), spriteHits]
    simp only [spriteMask_iff, Bool.false_eq_true, false_or]
  rw [s.drawSprite_reg, if_pos rfl, ← hflag]
  exact ⟨fun h => by rw [h]; rfl, fun h => by rw [Bool.eq_false_iff.mpr h]; rfl⟩

/-! ### O35 -/

/-- Settles O35: the blend toggles the pixels under the mask, and its flag is the collision. -/
theorem drawXorsTheSpriteMask : Obligations.DrawXorsTheSpriteMask := by
  refine ⟨fun w hw => decodeWord_of_row (.drw 0 0 0) hw, fun x y n s hn => ⟨fun h0 h => ?_, fun h => ?_⟩⟩
  · exact takesFault_of_exec (fun _ => ⟨nofun, nofun⟩) (exec_drw_fault s x y n (by omega) (by omega))
  · obtain ⟨hhit, hmiss⟩ := drawSprite_reg_VF (s := s) hn (s.reg x).toNat (s.reg y).toNat
    refine ⟨_, exec_drw_ok s x y n (by omega), fun cx cy _ _ => drawSprite_pixel hn _ _ cx cy, hhit, hmiss,
      fun r hr => ?_, s.drawSprite_frame _ _ _⟩
    rw [s.drawSprite_reg, if_neg hr]

/-! ### A draw as exclusive or with a fixed display -/

/-- The display that a draw makes of an empty one: it is lit where the draw toggles. -/
def toggled (vx row : Nat) (bs : List Byte) : Display := (blendRows vx row bs (Vector.replicate 32 0, false)).1

theorem blendRow_pixel_xor (vx row : Nat) (b : Byte) (acc : Blend) (cx cy : Nat) :
    Display.pixel (blendRow vx row b acc).1 cx cy = (Display.pixel acc.1 cx cy ^^
      Display.pixel (blendRow vx row b (Vector.replicate 32 0, false)).1 cx cy) := by
  have hacc := blendCols_pixel vx row b acc 8 (by decide) cx cy
  have hblank := blendCols_pixel vx row b (Vector.replicate 32 0, false) 8 (by decide) cx cy
  rw [Display.pixel_replicate, ← blendRow_eq] at hblank
  rw [← blendRow_eq] at hacc
  by_cases hm : rowMask vx row b 8 cx cy
  · rw [hacc.1 hm, hblank.1 hm, Bool.not_false, Bool.xor_true]
  · rw [hacc.2 hm, hblank.2 hm, Bool.xor_false]

/-- A sprite of any number of rows, drawn on any display (R103). -/
theorem blendRows_pixel_xor (vx row : Nat) (bs : List Byte) (acc : Blend) (cx cy : Nat) :
    Display.pixel (blendRows vx row bs acc).1 cx cy =
      (Display.pixel acc.1 cx cy ^^ Display.pixel (toggled vx row bs) cx cy) := by
  induction bs generalizing row acc with
  | nil =>
    rw [toggled, blendRows, blendRows, Display.pixel_replicate, Bool.xor_false]
  | cons b bs ih =>
    rw [toggled, blendRows, blendRows, ih, ih (row + 1) (blendRow vx row b (Vector.replicate 32 0, false)),
      blendRow_pixel_xor, Bool.xor_assoc]

theorem drawSprite_pixel_xor (s : State) (vx vy : Nat) (bs : List Byte) (cx cy : Nat) :
    Display.pixel (s.drawSprite vx vy bs).disp cx cy =
      (Display.pixel s.disp cx cy ^^ Display.pixel (toggled vx vy bs) cx cy) :=
  blendRows_pixel_xor vx vy bs (s.disp, false) cx cy

theorem drawSprite_disp_comm (s : State) (vx vy ux uy : Nat) (bs cs : List Byte) :
    ((s.drawSprite vx vy bs).drawSprite ux uy cs).disp = ((s.drawSprite ux uy cs).drawSprite vx vy bs).disp := by
  refine Display.ext_pixel fun cx cy _ _ => ?_
  rw [drawSprite_pixel_xor, drawSprite_pixel_xor, drawSprite_pixel_xor, drawSprite_pixel_xor, Bool.xor_right_comm]

theorem drawSprite_twice_disp (s : State) (vx vy : Nat) (bs : List Byte) :
    ((s.drawSprite vx vy bs).drawSprite vx vy bs).disp = s.disp := by
  refine Display.ext_pixel fun cx cy _ _ => ?_
  rw [drawSprite_pixel_xor, drawSprite_pixel_xor, Bool.xor_assoc, Bool.xor_self, Bool.xor_false]

/-! ### O36 -/

/-- A display with no pixel set, read by pixel number, is the empty one (R31). -/
theorem disp_eq_replicate {d : Display} (h : ∀ p, Display.bit d p = false) : d = Vector.replicate 32 0 := by
  refine Display.ext_pixel fun cx cy hx hy => ?_
  have hp := h (cy * 64 + cx)
  rw [Display.bit, show (cy * 64 + cx) % 64 = cx by omega, show (cy * 64 + cx) / 64 = cy by omega] at hp
  rw [hp, Display.pixel_replicate]

/-- A byte other than 0 has a set bit, at some column of the sprite. -/
theorem exists_column_of_ne_zero {b : Byte} (h : b ≠ 0) : ∃ c, c < 8 ∧ b.getLsbD (7 - c) = true := by
  by_contra hno
  refine h (BitVec.eq_of_getLsbD_eq fun j hj => ?_)
  have hbit : b.getLsbD (7 - (7 - j)) ≠ true := fun hb => hno ⟨7 - j, by omega, hb⟩
  rw [show 7 - (7 - j) = j by omega] at hbit
  exact (Bool.eq_false_iff.mpr hbit).trans BitVec.getLsbD_zero.symm

/-- The mask is empty exactly when the sprite has no set bit. -/
theorem exists_spriteMask_iff {vx vy n : Nat} :
    (∃ cx cy, spriteMask s vx vy n cx cy) ↔ ∃ r, r < n ∧ s.byteAt (s.dataAddr + r) ≠ 0 := by
  constructor
  · rintro ⟨cx, cy, r, hr, c, hc, hb, -, -⟩
    refine ⟨r, hr, fun h0 => ?_⟩
    rw [h0] at hb
    exact Bool.false_ne_true (BitVec.getLsbD_zero.symm.trans hb)
  · rintro ⟨r, hr, h0⟩
    obtain ⟨c, hc, hb⟩ := exists_column_of_ne_zero h0
    exact ⟨_, _, r, hr, c, hc, hb, rfl, rfl⟩

/-- The same sprite drawn again where the first draw met a clear display: every pixel under the mask is lit. -/
theorem spriteHits_second {vx vy n : Nat} (hn : n < 16) (hclear : s.disp = Vector.replicate 32 0) :
    spriteHits (s.drawSprite vx vy (s.spriteBytes n)) vx vy n ↔ ∃ cx cy, spriteMask s vx vy n cx cy := by
  constructor
  · rintro ⟨cx, cy, hm, -⟩
    exact ⟨cx, cy, hm⟩
  · rintro ⟨cx, cy, hm⟩
    refine ⟨cx, cy, hm, ?_⟩
    rw [(drawSprite_pixel hn vx vy cx cy).1 hm, hclear, Display.pixel_replicate, Bool.not_false]

/-- Settles O36: draws are exclusive ors with fixed displays, and the flag of the second draw sees the pixels that the
first one has lit. -/
theorem drawingIsAnInvolutionAndCommutes : Obligations.DrawingIsAnInvolutionAndCommutes := by
  refine ⟨drawSprite_disp_comm, fun x y n s hx hy hn hin => ?_⟩
  have hreg {r : Reg} (hr : r ≠ 15) (vx vy : Nat) (bs : List Byte) : (s.drawSprite vx vy bs).reg r = s.reg r := by
    rw [s.drawSprite_reg, if_neg hr]
  have hsecond := exec_drw_ok (s.drawSprite (s.reg x).toNat (s.reg y).toNat (s.spriteBytes n)) x y n
    (show n = 0 ∨ s.dataAddr + n ≤ 4096 by omega)
  rw [hreg hx, hreg hy] at hsecond
  refine ⟨_, _, exec_drw_ok s x y n (by omega), hsecond, drawSprite_twice_disp s _ _ _, fun hclear => ?_⟩
  have hblank := disp_eq_replicate hclear
  obtain ⟨-, hfirst⟩ := drawSprite_reg_VF (s := s) hn (s.reg x).toNat (s.reg y).toNat
  obtain ⟨hhit, hmiss⟩ := drawSprite_reg_VF (s := s.drawSprite (s.reg x).toNat (s.reg y).toNat (s.spriteBytes n)) hn
    (s.reg x).toNat (s.reg y).toNat
  rw [spriteHits_second hn hblank, exists_spriteMask_iff] at hhit hmiss
  refine ⟨hfirst ?_, fun h1 => by_contra fun hno => ?_, hhit⟩
  · rintro ⟨cx, cy, -, hlit⟩
    rw [hblank, Display.pixel_replicate] at hlit
    cases hlit
  · have h0 := hmiss hno
    exact absurd (h1.symm.trans h0) (by decide)

end Sys2Proof.Machine
